-- ==== Sys2Proof/Word.lean ====
section
/-! DEFINITION. The words of QDEC: the 32-bit data word and the 40-bit operation descriptor (R9, R46). -/

namespace Sys2Proof

/-- A 32-bit word; read as a number it is signed, in two's complement (R9; log 7). -/
abbrev Word := BitVec 32

/-- A 40-bit operation descriptor (R46). -/
abbrev Descriptor := BitVec 40

/-- `INT32_MAX` (R9). -/
abbrev int32Max : Int := 2147483647

/-- `INT32_MIN` (R9). -/
abbrev int32Min : Int := -2147483648

end Sys2Proof
end

