-- ==== Sys2Proof/Syntax.lean ====
section
/-! DEFINITION. The names of QDEC: channels, lines, agents, the eight operations, and why a descriptor is invalid. -/

namespace Sys2Proof

/-- The closed set of channel identities (R5, R33). -/
inductive Channel where
  | A | B | C | D
  deriving DecidableEq, Repr

/-- The two lines of a channel: trigger (0°-phase) and direction (90°-phase) (R8, R12, R102). -/
inductive Line where
  | trigger | direction
  deriving DecidableEq, Repr

/-- The eight operation codes (R48). -/
inductive Op where
  | construct | read | write | isrev | setrev | trig | dir | pins
  deriving DecidableEq, Repr

/-- Who issues an operation (R8). -/
inductive Agent where
  | host | edgeSource | environment
  deriving DecidableEq, Repr

/-- An operation with its operands, one constructor per row of the opcode table (R48).
The channel is a natural number at this level, as R53 allows: 0 to 3 name A to D, and a number above 3 has the outcome R100 gives
it (log 12). -/
inductive Instr where
  /-- `CONSTRUCT ch` (R61). -/
  | construct (ch : Nat)
  /-- `READ ch` (R66). -/
  | read (ch : Nat)
  /-- `WRITE ch, n` (R67). -/
  | write (ch : Nat) (n : Word)
  /-- `ISREV ch` (R69). -/
  | isrev (ch : Nat)
  /-- `SETREV ch, b` (R70). -/
  | setrev (ch : Nat) (b : Bool)
  /-- `TRIG ch, T, D`: one invocation of the 0°-phase handler (R74). -/
  | trig (ch : Nat) (T D : Bool)
  /-- `DIR ch, T, D`: one invocation of the 90°-phase handler (R76). -/
  | dir (ch : Nat) (T D : Bool)
  /-- `PINS ch, t, d`: one sampling instant of the channel's two lines (R89). -/
  | pins (ch : Nat) (t d : Bool)
  deriving DecidableEq, Repr

/-- The operation code of an instruction (R48). -/
def Instr.op : Instr → Op
  | .construct _ => .construct
  | .read _ => .read
  | .write _ _ => .write
  | .isrev _ => .isrev
  | .setrev _ _ => .setrev
  | .trig _ _ _ => .trig
  | .dir _ _ _ => .dir
  | .pins _ _ _ => .pins

/-- The channel number an instruction names. -/
def Instr.ch : Instr → Nat
  | .construct ch => ch
  | .read ch => ch
  | .write ch _ => ch
  | .isrev ch => ch
  | .setrev ch _ => ch
  | .trig ch _ _ => ch
  | .dir ch _ _ => ch
  | .pins ch _ _ => ch

/-- Why a descriptor is invalid: the field that must be 0 and is not (R52). -/
inductive DecodeError where
  /-- `z` is 1. -/
  | reservedSet
  /-- `a` is 1 in an operation that has no `a` operand. -/
  | aSet (op : Op)
  /-- `b` is 1 in an operation that has no `b` operand. -/
  | bSet (op : Op)
  /-- `imm` is not 0 in an operation other than `WRITE`. -/
  | immSet (op : Op)
  deriving DecidableEq, Repr

/-- The pseudo-operation `ZERO ch` (R58a). -/
abbrev Instr.zero (ch : Nat) : Instr := .write ch 0

/-- The pseudo-operation `SEED ch, n` (R58b). -/
abbrev Instr.seed (ch : Nat) (n : Word) : Instr := .write ch n

/-- The pseudo-operation `HANDLER ch`, `tIn` and `dIn` the line levels when the handler samples them (R58c). -/
abbrev Instr.handler (ch : Nat) (tIn dIn : Bool) : Instr := .trig ch tIn dIn

/-- The pseudo-operation `HANDLER_90 ch` (R58c). -/
abbrev Instr.handler90 (ch : Nat) (tIn dIn : Bool) : Instr := .dir ch tIn dIn

end Sys2Proof
end

