-- ==== Sys2Proof/Config.lean ====
section
/-! DEFINITION. What the spec leaves to the implementation: configuration, fixed before reset and written by no operation (R13, R25). -/

namespace Sys2Proof

/-- The identifier of a digital line. R25 leaves its type and values open; that its carrier is a natural number is the model's choice
(DESIGN CHOICE, log 9), and no rule looks inside it. -/
structure PinId where
  name : Nat
  deriving DecidableEq, Repr, Inhabited

/-- The two registration flavours of the platform; "behaviorally identical" (R25, R87). -/
inductive IrqPath where
  | hardwareInterrupt | pinChange
  deriving DecidableEq, Repr, Inhabited

/-- `TRIG_PIN[c]`: open, read by no rule (R25; log 9). -/
opaque Config.trigPin : Channel → PinId

/-- `DIR_PIN[c]`: open, read by no rule (R25; log 9). -/
opaque Config.dirPin : Channel → PinId

/-- `IRQ_PATH[c][line]`: open, read by no rule (R25; log 9). -/
opaque Config.irqPath : Channel → Line → IrqPath

/-- `CMD_ACCEPTS_EVENTS`: whether the command port accepts a descriptor with `op` 5, 6 or 7 (R94, U18; log 8). -/
opaque Config.cmdAcceptsEvents : Bool

end Sys2Proof
end

