-- ==== Sys2Proof/WellFormed.lean ====
section
/-! DEFINITION. Which instructions a descriptor can spell. -/

namespace Sys2Proof

/-- The channel number names a channel (R49, R53). -/
def Instr.channelExists (i : Instr) : Bool := decide (i.ch < 4)

/-- A well-formed instruction: the one check the syntax leaves open, that its channel exists. Every value of every other operand is
an operand the encoding has (R50, R51). -/
def Instr.wf (i : Instr) : Bool := i.channelExists

end Sys2Proof
end

