-- ==== Sys2Proof/Decode.lean ====
section
/-! DEFINITION. The 40-bit descriptor: its fields, the decoder (total on all 2^40 words), the encoder, and the opcode table of R48. -/

namespace Sys2Proof

/-- The fields of format `Q` (R46). -/
structure Fields where
  op  : BitVec 3
  ch  : BitVec 2
  a   : Bool
  b   : Bool
  z   : Bool
  imm : Word
  deriving DecidableEq, Repr

/-- The fields of a descriptor (R46). -/
def Fields.ofWord (w : Descriptor) : Fields where
  op  := w.extractLsb' 37 3
  ch  := w.extractLsb' 35 2
  a   := w.getLsbD 34
  b   := w.getLsbD 33
  z   := w.getLsbD 32
  imm := w.extractLsb' 0 32

/-- The descriptor with these fields (R46: op, ch, a, b, z, imm from the most significant end). -/
def Fields.toWord (f : Fields) : Descriptor :=
  f.op ++ f.ch ++ BitVec.ofBool f.a ++ BitVec.ofBool f.b ++ BitVec.ofBool f.z ++ f.imm

/-- The operation a 3-bit code names; all eight codes are used (R48). -/
def Op.ofCode (code : BitVec 3) : Op :=
  match code.toFin with
  | 0 => .construct
  | 1 => .read
  | 2 => .write
  | 3 => .isrev
  | 4 => .setrev
  | 5 => .trig
  | 6 => .dir
  | 7 => .pins

/-- The 3-bit code of an operation (R48). -/
def Op.code : Op → BitVec 3
  | .construct => 0
  | .read => 1
  | .write => 2
  | .isrev => 3
  | .setrev => 4
  | .trig => 5
  | .dir => 6
  | .pins => 7

/-- The operations with an `a` operand (R46, R48). -/
def Op.usesA : Op → Bool
  | .setrev | .trig | .dir | .pins => true
  | .construct | .read | .write | .isrev => false

/-- The operations with a `b` operand (R46, R48). -/
def Op.usesB : Op → Bool
  | .trig | .dir | .pins => true
  | .construct | .read | .write | .isrev | .setrev => false

/-- The operations with an `imm` operand (R46, R50). -/
def Op.usesImm : Op → Bool
  | .write => true
  | .construct | .read | .isrev | .setrev | .trig | .dir | .pins => false

/-- The instruction of valid fields (R48 to R51). -/
def Fields.instr (f : Fields) : Instr :=
  match Op.ofCode f.op with
  | .construct => .construct f.ch.toNat
  | .read => .read f.ch.toNat
  | .write => .write f.ch.toNat f.imm
  | .isrev => .isrev f.ch.toNat
  | .setrev => .setrev f.ch.toNat f.a
  | .trig => .trig f.ch.toNat f.a f.b
  | .dir => .dir f.ch.toNat f.a f.b
  | .pins => .pins f.ch.toNat f.a f.b

/-- Which must-be-zero field is not 0, if one is (R52). Where several are, the leftmost named here is reported, a choice of the
model that only picks the refusal's name (log 13). -/
def Fields.violation (f : Fields) : Option DecodeError :=
  let op := Op.ofCode f.op
  if f.z then some .reservedSet
  else if f.a && !op.usesA then some (.aSet op)
  else if f.b && !op.usesB then some (.bSet op)
  else if f.imm != 0 && !op.usesImm then some (.immSet op)
  else none

/-- The instruction of a descriptor, or why it is invalid (R47, R52). -/
def decode (w : Descriptor) : Except DecodeError Instr :=
  match (Fields.ofWord w).violation with
  | some e => .error e
  | none => .ok (Fields.ofWord w).instr

/-- The fields of an instruction; every field that is not an operand is 0 (R46, R48). -/
def Instr.fields : Instr → Fields
  | .construct ch => ⟨Op.code .construct, BitVec.ofNat 2 ch, false, false, false, 0⟩
  | .read ch => ⟨Op.code .read, BitVec.ofNat 2 ch, false, false, false, 0⟩
  | .write ch n => ⟨Op.code .write, BitVec.ofNat 2 ch, false, false, false, n⟩
  | .isrev ch => ⟨Op.code .isrev, BitVec.ofNat 2 ch, false, false, false, 0⟩
  | .setrev ch b => ⟨Op.code .setrev, BitVec.ofNat 2 ch, b, false, false, 0⟩
  | .trig ch T D => ⟨Op.code .trig, BitVec.ofNat 2 ch, T, D, false, 0⟩
  | .dir ch T D => ⟨Op.code .dir, BitVec.ofNat 2 ch, T, D, false, 0⟩
  | .pins ch t d => ⟨Op.code .pins, BitVec.ofNat 2 ch, t, d, false, 0⟩

/-- The descriptor of a well-formed instruction (R46, R48). A channel number above 3 has no descriptor (R53); the word given for
one stands for nothing. -/
def encode (i : Instr) : Descriptor := i.fields.toWord

/-- One row of the opcode table (R48). -/
structure OpcodeRow where
  op      : Op
  pattern : Descriptor
  mask    : Descriptor
  deriving DecidableEq, Repr

/-- A word is this row's operation (R48: `w AND mask = match`). -/
def OpcodeRow.matches (r : OpcodeRow) (w : Descriptor) : Bool := (w &&& r.mask) == r.pattern

/-- The opcode table, the numbers as R48 prints them. -/
def opcodeRows : List OpcodeRow :=
  [⟨.construct, 0x0000000000, 0xE7FFFFFFFF⟩,
   ⟨.read,      0x2000000000, 0xE7FFFFFFFF⟩,
   ⟨.write,     0x4000000000, 0xE700000000⟩,
   ⟨.isrev,     0x6000000000, 0xE7FFFFFFFF⟩,
   ⟨.setrev,    0x8000000000, 0xE3FFFFFFFF⟩,
   ⟨.trig,      0xA000000000, 0xE1FFFFFFFF⟩,
   ⟨.dir,       0xC000000000, 0xE1FFFFFFFF⟩,
   ⟨.pins,      0xE000000000, 0xE1FFFFFFFF⟩]

/-- The agent that issues an operation (R8, R48). -/
def Op.issuedBy : Op → Agent
  | .construct | .read | .write | .isrev | .setrev => .host
  | .trig | .dir => .edgeSource
  | .pins => .environment

/-- The word the opcode table's numbering gives, as a descriptor: one 40-bit word, bit 0 its least significant bit. Bits a word has
above bit 39 fit no descriptor; the word with only `z` set, which is invalid, stands for such a one. -/
def tableDescriptor (nbits w : Nat) : Descriptor :=
  if w % 2 ^ nbits < 2 ^ 40 then BitVec.ofNat 40 (w % 2 ^ nbits) else 0x0100000000

/-- The instruction the decoder reads from a word numbered as the opcode table numbers it. -/
def decodeTableWord (nbits w : Nat) : Option Instr :=
  match decode (tableDescriptor nbits w) with
  | .ok i => some i
  | .error _ => none

end Sys2Proof
end

