-- ==== Sys2Proof/Machine/State.lean ====
section
/-! DEFINITION. The state of QDEC (R13), what a step can report, and the state after reset (R27, R117). -/

namespace Sys2Proof.Machine

/-- The fault causes of R96, with what each records.
A faulting step is a NEXT state in which `State.raise` has set the fault record (R97; log 3): the step function never ends in
`Host.Outcome.fault`. All four are safe: the model reports where the source says "undefined/fatal". -/
inductive Fault where
  /-- Code 1, `FAULT_UNCLAIMED`: raised by TRIG, DIR, READ, WRITE, ISREV, SETREV on a channel with `claimed` 0 (R65, R78, R98). Safe. -/
  | unclaimed (c : Channel) (op : Op)
  /-- Code 2, `FAULT_RECLAIM`: raised by CONSTRUCT on a claimed channel (R63, R99). Safe. -/
  | reclaim (c : Channel)
  /-- Code 3, `FAULT_BAD_CHANNEL`: raised by any operation whose channel number names no channel (R53, R100). No descriptor spells
  one. Safe. -/
  | badChannel (n : Nat) (op : Op)
  /-- Code 4, `FAULT_LATE_CONSTRUCT`: raised by CONSTRUCT of an unclaimed channel once edge delivery has started (R62, R101). Safe. -/
  | lateConstruct (c : Channel)
  deriving DecidableEq, Repr

/-- Why a step refuses: what was presented is no step of the machine. -/
inductive Refusal where
  /-- An instruction without a meaning, by its mnemonic. Raised by no arm of `exec`: every instruction has its meaning. Safe. -/
  | notModelled (mnemonic : String)
  /-- Raised by `step`: an invalid descriptor, refused at the boundary (R52). Safe. -/
  | invalidDescriptor (e : DecodeError)
  /-- Raised by `step`: TRIG, DIR or PINS on the command port of a block whose port rejects them (R94, U18; log 8). Safe. -/
  | notAHostOperation (op : Op)
  /-- Raised by `step`: nothing is presented, the end of the supplied trace (R135; log 1). Safe. -/
  | endOfInputs
  deriving DecidableEq, Repr

/-- What a decoder owns: the counter and the direction-inversion flag (R14, R16). -/
structure Decoder where
  position : Word
  reversed : Bool
  deriving DecidableEq, Repr

/-- One invocation of a handler: the line whose edge raised it and the levels it sees (R73, R92). -/
structure EdgeEvent where
  line : Line
  T    : Bool
  D    : Bool
  deriving DecidableEq, Repr

/-- An event that a sampling instant has raised and whose own step is still to come (R89, R135), and how many steps of others may still
come before it (logs 5, 6). -/
structure Raised where
  event : EdgeEvent
  room  : Nat
  deriving DecidableEq, Repr

/-- The state of one channel (R13). -/
structure Chan where
  /-- The registry entry: `none` while no decoder owns the channel, `claimed[c]` being its presence (R17, R84); `position[c]` and
  `reversed[c]` have values exactly when it is there (R15, R16, R30a). -/
  decoder : Option Decoder
  /-- `t_prev[c]`: the trigger level at the last sampling instant (R22). -/
  tPrev   : Option Bool
  /-- `d_prev[c]`: the direction level at the last sampling instant (R22). -/
  dPrev   : Option Bool
  /-- The events its sampling instant has raised, each a further step that is still to come, in their order (R89, R93, R135; log 5). -/
  raised  : List Raised
  deriving DecidableEq, Repr

/-- The four channels (R5, R33). -/
structure Bank where
  a : Chan
  b : Chan
  c : Chan
  d : Chan
  deriving DecidableEq, Repr

/-- What the last step put on the ports: nothing, a 32-bit result, or a fault (R7, R94; log 4). -/
inductive Output where
  | none
  | result (w : Word)
  | fault (f : Fault)
  deriving DecidableEq, Repr

/-- How two events of one sampling instant are placed in the trace (R7, R89, R93; log 6): which comes first, and how many steps of others
may come between the two. A free choice of the environment. -/
structure Schedule where
  first   : Line
  between : Nat
  deriving DecidableEq, Repr

/-- Where a descriptor arrives: the command port of R94, or past it (an edge source, the environment, an event issued directly)
(R47). -/
inductive Port where
  | cmd | direct
  deriving DecidableEq, Repr

/-- What the outside presents for one step (log 1). -/
inductive Input where
  /-- The reset line is asserted (R94, R117). -/
  | rst
  /-- An operation arrives, with the placement of two events it may raise. -/
  | op (port : Port) (word : Descriptor) (schedule : Schedule)
  deriving DecidableEq, Repr

/-- The state of QDEC: R13's table, the outputs, and what the outside still presents. -/
structure State where
  /-- `claimed`, `position`, `reversed`, `t_prev`, `d_prev` of the four channels (R13). -/
  chans    : Bank
  /-- `started` (R23). -/
  started  : Bool
  /-- The sticky fault record `fault` (R97). -/
  fault    : Option Fault
  /-- The outputs of the last step (R7, R94; log 4). -/
  out      : Output
  /-- The model's own field: the free placement of two events the current operation may raise (log 6). -/
  schedule : Schedule
  /-- The model's own field: what is still presented to the block, in the trace's order (R7, R41; log 1). -/
  inputs   : List Input
  deriving DecidableEq, Repr

/-- A channel after reset: unclaimed, no level seen (R27, R28). -/
def Chan.reset : Chan := { decoder := none, tPrev := none, dPrev := none, raised := [] }

/-- The placement under which nothing comes between two events of one instant (log 6). -/
def Schedule.together : Schedule := { first := .trigger, between := 0 }

/-- The state after reset (R27, R28, R117). -/
def State.reset : State where
  chans    := { a := Chan.reset, b := Chan.reset, c := Chan.reset, d := Chan.reset }
  started  := false
  fault    := none
  out      := .none
  schedule := Schedule.together
  inputs   := []

end Sys2Proof.Machine
end

