-- ==== Sys2Proof/Machine/Operands.lean ====
section
/-! DEFINITION. Operand forms: the channel a number names, the signed reading of an immediate, the bit of a flag as a word. -/

namespace Sys2Proof

/-- The number of a channel: A=0, B=1, C=2, D=3 (R33). -/
def Channel.index : Channel → Nat
  | .A => 0
  | .B => 1
  | .C => 2
  | .D => 3

/-- The channel a number names; none above 3, and no reduction modulo 4 (R53, R100). -/
def Channel.ofNat? : Nat → Option Channel
  | 0 => some .A
  | 1 => some .B
  | 2 => some .C
  | 3 => some .D
  | _ + 4 => none

/-- The operation an edge of a line is delivered as: TRIG for the trigger line, DIR for the direction line (R83, R102). -/
def Line.op : Line → Op
  | .trigger => .trig
  | .direction => .dir

/-- The other line of a channel. -/
def Line.other : Line → Line
  | .trigger => .direction
  | .direction => .trigger

end Sys2Proof

namespace Sys2Proof.Machine

/-- The signed value of a 32-bit operand (R9, R50). -/
def signed (w : Word) : Int := w.toInt

/-- A bit zero-extended to the 32-bit result (R69). -/
def zext32 (b : Bool) : Word := (BitVec.ofBool b).setWidth 32

end Sys2Proof.Machine
end

