-- ==== Sys2Proof/Machine/Flags.lean ====
section
/-! DEFINITION. The one predicate QDEC computes, the direction `cw`, and the ±1 it selects (R18, R74, R76, R79). There is no carry, zero,
sign or overflow flag (R18). -/

namespace Sys2Proof.Machine

/-- `cw` of the 0°-phase handler: `T XOR D XOR reversed` (R74). -/
def cwTrig (T D reversed : Bool) : Bool := (T ^^ D) ^^ reversed

/-- `cw` of the 90°-phase handler: `(NOT T) XOR D XOR reversed` (R76, R77). -/
def cwDir (T D reversed : Bool) : Bool := ((!T) ^^ D) ^^ reversed

/-- `cw` of the handler a line's edge invokes (R83). -/
def cw : Line → Bool → Bool → Bool → Bool
  | .trigger => cwTrig
  | .direction => cwDir

/-- `wrap32(z)`: the signed 32-bit value congruent to `z` modulo 2^32 (R9). -/
def wrap32 (z : Int) : Word := BitVec.ofInt 32 z

/-- The change an edge event makes: +1 when `cw` is 1, -1 when it is 0 (R73). -/
def delta (cw : Bool) : Int := if cw then 1 else -1

/-- The ±1 update: exact, then wrapped (R74, R79). -/
def tick (cw : Bool) (p : Word) : Word := wrap32 (signed p + delta cw)

/-- A line changed between two sampling instants; never at its first sample (R89, R90). -/
def changed (prev : Option Bool) (now : Bool) : Bool :=
  match prev with
  | none => false
  | some p => p != now

end Sys2Proof.Machine
end

