-- ==== Sys2Proof/Machine/Ops.lean ====
section
/-! DEFINITION. The named operations over the state: the channels and their registers, the two locations of the channel space, raising a
fault, one edge event, one sampling instant and the events it raises, whose step comes next, and what arrives at the block's boundary. -/

namespace Sys2Proof.Machine

/-! The channels and their registers. -/

/-- Channel `c` of the bank. -/
def Bank.get (b : Bank) : Channel → Chan
  | .A => b.a
  | .B => b.b
  | .C => b.c
  | .D => b.d

/-- The bank with channel `c` replaced. -/
def Bank.set (b : Bank) (c : Channel) (x : Chan) : Bank :=
  match c with
  | .A => { b with a := x }
  | .B => { b with b := x }
  | .C => { b with c := x }
  | .D => { b with d := x }

/-- The state of channel `c`. -/
def State.chan (s : State) (c : Channel) : Chan := s.chans.get c

/-- The state with channel `c` replaced. -/
def State.setChan (s : State) (c : Channel) (x : Chan) : State := { s with chans := s.chans.set c x }

/-- The registry entry of channel `c` (R17, R84). -/
def State.decoder (s : State) (c : Channel) : Option Decoder := (s.chan c).decoder

/-- `claimed[c]` (R17). -/
def State.claimed (s : State) (c : Channel) : Bool := (s.decoder c).isSome

/-- `position[c]`, absent while the channel is unclaimed (R14, R15). -/
def State.position (s : State) (c : Channel) : Option Word := (s.decoder c).map Decoder.position

/-- `reversed[c]`, absent while the channel is unclaimed (R16). -/
def State.reversed (s : State) (c : Channel) : Option Bool := (s.decoder c).map Decoder.reversed

/-- `t_prev[c]` (R22). -/
def State.tPrev (s : State) (c : Channel) : Option Bool := (s.chan c).tPrev

/-- `d_prev[c]` (R22). -/
def State.dPrev (s : State) (c : Channel) : Option Bool := (s.chan c).dPrev

/-- The events of channel `c` raised and not yet performed (R89, R93, R135; log 5). -/
def State.raised (s : State) (c : Channel) : List Raised := (s.chan c).raised

/-- The source (c, line) is enabled: both lines of a channel from its construction on, for good (R103). -/
def State.sourceEnabled (s : State) (c : Channel) (_line : Line) : Bool := s.claimed c

/-- Channel `c` owned by this decoder; its previous levels stay as they are (R61, R67, R70). -/
def State.setDecoder (s : State) (c : Channel) (d : Decoder) : State :=
  s.setChan c { s.chan c with decoder := some d }

/-! The channel space (R31, R32). -/

/-- The two locations of a channel (R32). -/
inductive Location where
  | pos | rev
  deriving DecidableEq, Repr

/-- What a location holds, as a 32-bit word; nothing while the channel is unclaimed (R15, R32, R36). -/
def State.load (s : State) (c : Channel) : Location → Option Word
  | .pos => s.position c
  | .rev => (s.reversed c).map zext32

/-! The ports (R94). -/

/-- The step produces no result (R7, U13). -/
def State.noResult (s : State) : State := { s with out := .none }

/-- The step produces a 32-bit result (R7). -/
def State.withResult (s : State) (w : Word) : State := { s with out := .result w }

/-- The `result` port after a step that has a result (R94). -/
def State.resultPort (s : State) : Option Word :=
  match s.out with
  | .result w => some w
  | .none => none
  | .fault _ => none

/-- The code of a fault (R96). -/
def Fault.code : Fault → Nat
  | .unclaimed _ _ => 1
  | .reclaim _ => 2
  | .badChannel _ _ => 3
  | .lateConstruct _ => 4

/-- The channel number a fault records (R96, R97). -/
def Fault.channel : Fault → Nat
  | .unclaimed c _ => c.index
  | .reclaim c => c.index
  | .badChannel n _ => n
  | .lateConstruct c => c.index

/-- The operation a fault records (R96, R97). -/
def Fault.operation : Fault → Op
  | .unclaimed _ op => op
  | .reclaim _ => .construct
  | .badChannel _ op => op
  | .lateConstruct _ => .construct

/-- The `fault` port: the code of the sticky record, when it is set (R94). -/
def State.faultPort (s : State) : Option Nat := s.fault.map Fault.code

/-! Taking a fault. There is no handler, no vector and no return from one (R95); entering and leaving an edge handler saves and
restores nothing (R108, R110), so `edgeEvent` below is the whole of an interrupt. -/

/-- Raising a fault: only the record changes, the first one is kept, and no result is produced (R97). -/
def State.raise (f : Fault) (s : State) : State := { s with fault := s.fault.or (some f), out := .fault f }

/-- An operation on a channel number: `FAULT_BAD_CHANNEL` before anything that indexes by channel (R100, R107c). -/
def onChannel (ch : Nat) (op : Op) (s : State) (k : Channel → State) : State :=
  match Channel.ofNat? ch with
  | none => s.raise (.badChannel ch op)
  | some c => k c

/-- An operation on a claimed channel: `FAULT_UNCLAIMED` where no decoder owns it (R65, R78). -/
def onDecoder (ch : Nat) (op : Op) (s : State) (k : Channel → Decoder → State) : State :=
  onChannel ch op s fun c =>
    match s.decoder c with
    | none => s.raise (.unclaimed c op)
    | some d => k c d

/-! One edge event (R73 to R79). -/

/-- One invocation of a handler: `position` by ±1 as `cw` says, `started` set; on an unclaimed channel `FAULT_UNCLAIMED` and nothing
else (R73, R74, R76, R78). -/
def State.edgeEvent (c : Channel) (e : EdgeEvent) (s : State) : State :=
  match s.decoder c with
  | none => s.raise (.unclaimed c e.line.op)
  | some d =>
    { (s.setDecoder c { d with position := tick (cw e.line e.T e.D d.reversed) d.position }) with
      started := true, out := .none }

/-! One sampling instant (R89 to R93, R105). -/

/-- The events of one sampling instant: one per changed line, both with the new levels; of two, the placement says which comes first and
how many steps of others may come before the second (R89, R92, R93). No step taken from the inputs comes before the first. -/
def raisedEvents (placement : Schedule) (te de t d : Bool) : List Raised :=
  match te, de with
  | true, true => [⟨⟨placement.first, t, d⟩, 0⟩, ⟨⟨placement.first.other, t, d⟩, placement.between⟩]
  | true, false => [⟨⟨.trigger, t, d⟩, 0⟩]
  | false, true => [⟨⟨.direction, t, d⟩, 0⟩]
  | false, false => []

/-- One sampling instant: the levels are latched, and the changed lines of an enabled channel raise their events, each a further step
(R89 to R91, R103, R135). `step` takes it only when no event of the channel is still to come (R105). -/
def State.sample (c : Channel) (t d : Bool) (s : State) : State :=
  let x := s.chan c
  let te := changed x.tPrev t && s.sourceEnabled c .trigger
  let de := changed x.dPrev d && s.sourceEnabled c .direction
  (s.setChan c { x with
    tPrev := some t, dPrev := some d, raised := x.raised ++ raisedEvents s.schedule te de t d }).noResult

/-- The oldest raised event of channel `c` is performed, by its own rule; without one nothing happens (R89). -/
def State.performRaised (c : Channel) (s : State) : State :=
  match s.raised c with
  | [] => s
  | r :: rest => (s.setChan c { s.chan c with raised := rest }).edgeEvent c r.event

/-- All raised events of channel `c` are performed, in order. -/
def State.finish (c : Channel) (s : State) : State := Nat.repeat (State.performRaised c) (s.raised c).length s

/-- All raised events of all channels are performed. -/
def State.settle (s : State) : State := (((s.finish .A).finish .B).finish .C).finish .D

/-! Whose step comes next (R7, R93, R105, R135; logs 5, 6). -/

/-- A step that is not its own has come before the oldest event of a channel. -/
def Chan.age (x : Chan) : Chan :=
  match x.raised with
  | [] => x
  | r :: rest => { x with raised := { r with room := r.room - 1 } :: rest }

/-- A step comes before the oldest event of every channel. -/
def State.age (s : State) : State :=
  { s with chans := { a := s.chans.a.age, b := s.chans.b.age, c := s.chans.c.age, d := s.chans.d.age } }

/-- An event of the channel is still to come (R89). -/
def State.hasRaised (s : State) (c : Channel) : Bool := !(s.raised c).isEmpty

/-- The oldest raised event of the channel has no room for a step of another before it. -/
def State.isDue (s : State) (c : Channel) : Bool :=
  match s.raised c with
  | [] => false
  | r :: _ => r.room == 0

/-- The first channel with a property, in the order A, B, C, D. -/
def firstChannel (p : Channel → Bool) : Option Channel := [Channel.A, .B, .C, .D].find? p

/-- The channel whose oldest raised event is the next step, if one's is. One that is due comes first; then a sampling instant waits for the
events of the instant of its channel before it (R105), and a refusal for every raised event. Everything else that is presented comes
before an event that has room (R7). -/
def State.turn (s : State) (presented : Except Refusal Instr) : Option Channel :=
  match firstChannel s.isDue with
  | some c => some c
  | none =>
    match presented with
    | .error _ => firstChannel s.hasRaised
    | .ok i => if i.op == .pins then (Channel.ofNat? i.ch).filter s.hasRaised else none

/-- The step of the oldest raised event of channel `c`. -/
def State.eventStep (c : Channel) (s : State) : State := s.age.performRaised c

/-! The block's boundary (R52, R94, R112). -/

/-- What a port accepts. The command port carries host operations, and the others as `CMD_ACCEPTS_EVENTS` says (R94, U18); past it the
block cannot tell who issues what (R112). -/
def Port.accepts (p : Port) (op : Op) : Bool :=
  match p with
  | .direct => true
  | .cmd => op.issuedBy == .host || Config.cmdAcceptsEvents

/-- A descriptor at the boundary: refused when invalid (R52) or not accepted by its port (R94), else the instruction it spells. -/
def boundary (p : Port) (w : Descriptor) : Except Refusal Instr :=
  match decode w with
  | .error e => .error (.invalidDescriptor e)
  | .ok i => if p.accepts i.op then .ok i else .error (.notAHostOperation i.op)

/-- The port on which an operation of this descriptor arrives: the command port for a host operation, past it for the others (R47,
R94). -/
def Port.of (w : Descriptor) : Port :=
  if (Op.ofCode (Fields.ofWord w).op).issuedBy == .host then .cmd else .direct

/-- The operation at the head of the inputs is taken: the rest of the inputs stay, its placement of two events holds, and a step comes
before every raised event. -/
def State.take (s : State) (rest : List Input) (placement : Schedule) : State :=
  { s.age with inputs := rest, schedule := placement }

/-- Reset while running: the reset state, whatever the block held; what the outside presents next is not the block's (R117, R119). -/
def State.restart (rest : List Input) : State := { State.reset with inputs := rest }

end Sys2Proof.Machine
end

