-- ==== Sys2Proof/Machine/Construct.lean ====
section
/-! DEFINITION. The meaning of CONSTRUCT (40_construction.md). -/

namespace Sys2Proof.Machine

/-- `CONSTRUCT ch`: `FAULT_RECLAIM` on a claimed channel, else `FAULT_LATE_CONSTRUCT` once events have been delivered, else the channel
is claimed with `position` 0 and `reversed` 0 (R61 to R63). -/
def execConstruct (ch : Nat) (s : State) : Host.Outcome State Fault Refusal :=
  .next <| onChannel ch .construct s fun c =>
    if s.claimed c then s.raise (.reclaim c)
    else if s.started then s.raise (.lateConstruct c)
    else (s.setDecoder c { position := 0, reversed := false }).noResult

end Sys2Proof.Machine
end

