-- ==== Sys2Proof/Machine/EdgeHandlers.lean ====
section
/-! DEFINITION. The meanings of the two edge handlers TRIG and DIR (42_edge_handlers.md). -/

namespace Sys2Proof.Machine

/-- `TRIG ch, T, D`: the 0°-phase handler, `cw = T XOR D XOR reversed` (R74). -/
def execTrig (ch : Nat) (T D : Bool) (s : State) : Host.Outcome State Fault Refusal :=
  .next <| onChannel ch .trig s fun c => s.edgeEvent c { line := .trigger, T := T, D := D }

/-- `DIR ch, T, D`: the 90°-phase handler, `cw = (NOT T) XOR D XOR reversed` (R76). -/
def execDir (ch : Nat) (T D : Bool) (s : State) : Host.Outcome State Fault Refusal :=
  .next <| onChannel ch .dir s fun c => s.edgeEvent c { line := .direction, T := T, D := D }

end Sys2Proof.Machine
end

