-- ==== Sys2Proof/Machine/HostAccess.lean ====
section
/-! DEFINITION. The meanings of the host accesses READ, WRITE, ISREV and SETREV (41_host_access.md). -/

namespace Sys2Proof.Machine

/-- `READ ch`: the result is `position` (R66). -/
def execRead (ch : Nat) (s : State) : Host.Outcome State Fault Refusal :=
  .next <| onDecoder ch .read s fun _ d => s.withResult d.position

/-- `WRITE ch, n`: `position` is `n`, unconditionally (R67). -/
def execWrite (ch : Nat) (n : Word) (s : State) : Host.Outcome State Fault Refusal :=
  .next <| onDecoder ch .write s fun c d => (s.setDecoder c { d with position := n }).noResult

/-- `ISREV ch`: the result is `reversed`, zero-extended (R69). -/
def execIsrev (ch : Nat) (s : State) : Host.Outcome State Fault Refusal :=
  .next <| onDecoder ch .isrev s fun _ d => s.withResult (zext32 d.reversed)

/-- `SETREV ch, b`: `reversed` is `b` (R70). -/
def execSetrev (ch : Nat) (b : Bool) (s : State) : Host.Outcome State Fault Refusal :=
  .next <| onDecoder ch .setrev s fun c d => (s.setDecoder c { d with reversed := b }).noResult

end Sys2Proof.Machine
end

