-- ==== Sys2Proof/Machine/Pins.lean ====
section
/-! DEFINITION. The meaning of PINS, one sampling instant (43_dispatch_and_pins.md). -/

namespace Sys2Proof.Machine

/-- `PINS ch, t, d`: the levels are latched, and each changed line of a claimed channel raises its event, a further step (R89 to R93, R135). -/
def execPins (ch : Nat) (t d : Bool) (s : State) : Host.Outcome State Fault Refusal :=
  .next <| onChannel ch .pins s fun c => s.sample c t d

end Sys2Proof.Machine
end

