-- ==== Sys2Proof/Machine/Dispatch.lean ====
section
/-! DEFINITION. One arm per operation of R48. -/

namespace Sys2Proof.Machine

def exec (i : Instr) (s : State) : Host.Outcome State Fault Refusal :=
  match i with
  | .construct ch => Sys2Proof.Machine.execConstruct ch s
  | .read ch => Sys2Proof.Machine.execRead ch s
  | .write ch n => Sys2Proof.Machine.execWrite ch n s
  | .isrev ch => Sys2Proof.Machine.execIsrev ch s
  | .setrev ch b => Sys2Proof.Machine.execSetrev ch b s
  | .trig ch T D => Sys2Proof.Machine.execTrig ch T D s
  | .dir ch T D => Sys2Proof.Machine.execDir ch T D s
  | .pins ch t d => Sys2Proof.Machine.execPins ch t d s

end Sys2Proof.Machine
end

