-- ==== Sys2Proof/Machine/Step.lean ====
section
/-! DEFINITION. One step: what the outside presents next is taken (R7). -/

namespace Sys2Proof.Machine

/-- One step of the machine (R7; log 1): reset; or a raised event whose turn it is; or the operation presented next, run or refused. -/
def step (s : State) : Host.Outcome State Fault Refusal :=
  match s.inputs with
  | .rst :: rest => .next (State.restart rest)
  | [] =>
    match s.turn (.error .endOfInputs) with
    | some c => .next (s.eventStep c)
    | none => .refused .endOfInputs
  | .op p w placement :: rest =>
    match s.turn (boundary p w) with
    | some c => .next (s.eventStep c)
    | none =>
      match boundary p w with
      | .error r => .refused r
      | .ok i => exec i (s.take rest placement)

/-- The instruction of a word numbered as the opcode table numbers it is what the outside presents next, on the port it arrives at,
nothing coming between two events it raises, and every event raised before it performed (logs 1, 6, 15). -/
def State.withFetchWord (s : State) (nbits w : Nat) : State :=
  let word := tableDescriptor nbits w
  { s.settle with inputs := Input.op (Port.of word) word Schedule.together :: s.inputs }

end Sys2Proof.Machine
end

