-- ==== Sys2Proof/Machine/Written.lean ====
section
/-! DEFINITION. The written form of operations, results and faults (R56), printed and read. No step depends on it. -/

namespace Sys2Proof.Machine

/-- The mnemonic of an operation (R48). -/
def mnemonic : Op → String
  | .construct => "CONSTRUCT"
  | .read => "READ"
  | .write => "WRITE"
  | .isrev => "ISREV"
  | .setrev => "SETREV"
  | .trig => "TRIG"
  | .dir => "DIR"
  | .pins => "PINS"

/-- The letter of a channel (R56). -/
def channelLetter : Channel → String
  | .A => "A"
  | .B => "B"
  | .C => "C"
  | .D => "D"

/-- A bit operand (R56). -/
def bitText (b : Bool) : String := if b then "1" else "0"

/-- The operands after the channel, each with the comma before it (R56). -/
def operandText : Instr → String
  | .construct _ => ""
  | .read _ => ""
  | .write _ n => ", " ++ toString (signed n)
  | .isrev _ => ""
  | .setrev _ b => ", " ++ bitText b
  | .trig _ T D => ", " ++ bitText T ++ ", " ++ bitText D
  | .dir _ T D => ", " ++ bitText T ++ ", " ++ bitText D
  | .pins _ t d => ", " ++ bitText t ++ ", " ++ bitText d

/-- The written form of an operation; none for a channel number that has no letter (R53, R56). -/
def written (i : Instr) : Option String :=
  (Channel.ofNat? i.ch).map fun c => mnemonic i.op ++ " " ++ channelLetter c ++ operandText i

/-- The name of a fault (R96). -/
def faultName : Fault → String
  | .unclaimed _ _ => "FAULT_UNCLAIMED"
  | .reclaim _ => "FAULT_RECLAIM"
  | .badChannel _ _ => "FAULT_BAD_CHANNEL"
  | .lateConstruct _ => "FAULT_LATE_CONSTRUCT"

/-- What is written after an operation: nothing, a result after `->`, a fault after `!` (R56). -/
def outputText : Output → String
  | .none => ""
  | .result w => " -> " ++ toString (signed w)
  | .fault f => " ! " ++ faultName f

/-! Reading the written form. -/

/-- The operation of a mnemonic (R48). -/
def readMnemonic (m : String) : Option Op :=
  [Op.construct, .read, .write, .isrev, .setrev, .trig, .dir, .pins].find? fun op => mnemonic op == m

/-- The channel of a letter (R56). -/
def readChannel (x : List Char) : Option Nat :=
  match x with
  | ['A'] => some 0
  | ['B'] => some 1
  | ['C'] => some 2
  | ['D'] => some 3
  | _ => none

/-- A bit operand: `0` or `1` (R56). -/
def readBit (x : List Char) : Option Bool :=
  match x with
  | ['0'] => some false
  | ['1'] => some true
  | _ => none

/-- The value of a digit in a base. -/
def readDigit (base : Nat) (c : Char) : Option Nat :=
  let v :=
    if '0' ≤ c ∧ c ≤ '9' then c.toNat - '0'.toNat
    else if 'a' ≤ c ∧ c ≤ 'f' then c.toNat - 'a'.toNat + 10
    else if 'A' ≤ c ∧ c ≤ 'F' then c.toNat - 'A'.toNat + 10
    else base
  if v < base then some v else none

/-- The value of a list of digits, after those read so far. -/
def readDigits (base acc : Nat) : List Char → Option Nat
  | [] => some acc
  | c :: cs =>
    match readDigit base c with
    | none => none
    | some v => readDigits base (acc * base + v) cs

/-- A number: at least one digit. -/
def readNat (base : Nat) : List Char → Option Nat
  | [] => none
  | c :: cs => readDigits base 0 (c :: cs)

/-- A decimal value as an immediate: only a representable signed 32-bit value is one (R50, R56). -/
def immOfInt (z : Int) : Option Word :=
  if int32Min ≤ z ∧ z ≤ int32Max then some (wrap32 z) else none

/-- An immediate: decimal with an optional sign, or hexadecimal as the 32-bit pattern (R56). -/
def readImm (x : List Char) : Option Word :=
  match x with
  | '0' :: 'x' :: cs => (readNat 16 cs).bind fun v => if v < 2 ^ 32 then some (BitVec.ofNat 32 v) else none
  | '-' :: cs => (readNat 10 cs).bind fun v => immOfInt (-(v : Int))
  | '+' :: cs => (readNat 10 cs).bind fun v => immOfInt v
  | cs => (readNat 10 cs).bind fun v => immOfInt v

/-- The instruction of an operation and the texts of its operands (R56). -/
def readOperands (op : Op) (xs : List (List Char)) : Option Instr :=
  match op, xs with
  | .construct, [c] => (readChannel c).map .construct
  | .read, [c] => (readChannel c).map .read
  | .write, [c, n] => (readChannel c).bind fun ch => (readImm n).map (.write ch)
  | .isrev, [c] => (readChannel c).map .isrev
  | .setrev, [c, b] => (readChannel c).bind fun ch => (readBit b).map (.setrev ch)
  | .trig, [c, T, D] => (readChannel c).bind fun ch => (readBit T).bind fun t => (readBit D).map (.trig ch t)
  | .dir, [c, T, D] => (readChannel c).bind fun ch => (readBit T).bind fun t => (readBit D).map (.dir ch t)
  | .pins, [c, t, d] => (readChannel c).bind fun ch => (readBit t).bind fun x => (readBit d).map (.pins ch x)
  | _, _ => none

/-- The text without the spaces before and after it. -/
def trim (x : List Char) : List Char := ((x.dropWhile (· == ' ')).reverse.dropWhile (· == ' ')).reverse

/-- One written operation: the mnemonic, a space, the operands separated by commas (R56). -/
def readWritten (line : String) : Option Instr :=
  let text := trim line.toList
  let word := text.takeWhile (· != ' ')
  (readMnemonic (String.ofList word)).bind fun op =>
    readOperands op (((text.drop word.length).splitOn ',').map trim)

end Sys2Proof.Machine
end

