-- ==== Sys2Proof/Safety.lean ====
section
/-! DEFINITION. Good runs (R97), the invariants of the state (R30), and running a list of operations. -/

namespace Sys2Proof.Machine

/-- A good state: no fault has been recorded (R97). What the state holds otherwise says nothing about the hardware. -/
abbrev State.good (s : State) : Prop := s.fault = none

/-- Some channel is claimed. -/
abbrev State.someClaimed (s : State) : Prop := ∃ c, s.claimed c = true

/-- The invariant of one channel: both previous levels are known or neither is (R22); a channel with raised events is claimed, their
levels are the latched ones, and they are of different lines (R92, R93, R105; log 5). -/
structure Chan.Inv (x : Chan) : Prop where
  levels_together : x.tPrev.isSome = x.dPrev.isSome
  raised_claimed : x.raised ≠ [] → x.decoder.isSome = true
  raised_levels : ∀ r ∈ x.raised, x.tPrev = some r.event.T ∧ x.dPrev = some r.event.D
  raised_lines : (x.raised.map fun r => r.event.line).Nodup

/-- The invariant of the state: every channel's, and R30(d): once an event has been delivered some channel is claimed. (R30(a) holds
of every state, `claimed` being the presence of the registry entry that holds `position` and `reversed`.) -/
structure State.Inv (s : State) : Prop where
  channels : ∀ c, (s.chan c).Inv
  started_claimed : s.started = true → s.someClaimed

/-- A list of operations, one after the other, stopping at the first that does not answer a next state (R7, R135). -/
def runAll : List Instr → State → Host.Outcome State Fault Refusal
  | [], s => .next s
  | i :: is, s =>
    match exec i s with
    | .next s' => runAll is s'
    | .fault r => .fault r
    | .refused r => .refused r

/-- A number of steps, stopping at the first that does not answer a next state. -/
def runSteps : Nat → State → Host.Outcome State Fault Refusal
  | 0, s => .next s
  | n + 1, s =>
    match step s with
    | .next s' => runSteps n s'
    | .fault r => .fault r
    | .refused r => .refused r

/-- An operation presented past the command port (R47). -/
abbrev presents (i : Instr) (placement : Schedule) : Input := .op .direct (encode i) placement

/-- No event is still to come. -/
abbrev State.settled (s : State) : Prop := ∀ c, s.raised c = []

/-- Reset does not come next. -/
abbrev noReset (inputs : List Input) : Prop := ∀ rest, inputs ≠ .rst :: rest

/-- The operation that delivers an edge event of channel `c` (R83). -/
def EdgeEvent.instr (c : Channel) (e : EdgeEvent) : Instr :=
  match e.line with
  | .trigger => .trig c.index e.T e.D
  | .direction => .dir c.index e.T e.D

/-- Two states agree on every channel but `c`, on what is still presented and on the placement of two events: what an operation
on `c` leaves alone whatever it does (R85). -/
structure SameOutside (c : Channel) (s t : State) : Prop where
  others : ∀ c', c' ≠ c → t.chan c' = s.chan c'
  inputs : t.inputs = s.inputs
  schedule : t.schedule = s.schedule

/-- The state after a faulting step: the record, which keeps the first fault, and the port; nothing else (R97). -/
abbrev faulted (f : Fault) (s : State) : State := { s with fault := s.fault.or (some f), out := .fault f }

/-- The state but for its ports: what later steps depend on. -/
abbrev State.quiet (s : State) : State := { s with out := .none }

end Sys2Proof.Machine
end

