-- ==== Sys2Proof/Certificates/Slice0/Obligations.lean ====
section
/-! DEFINITION. The statements for the provers, each formalising rules of spec/. -/

open Sys2Proof Sys2Proof.Machine

/-! ## Encoding (30_encoding.md) -/

/-- R59, the worked encodings: each written form is read as an instruction, which its descriptor decodes to and which encodes to it; the
three invalid words are refused, each for the field R59 names. -/
def Obligations.WorkedEncodingsDecodeAndEncode : Prop :=
  (∀ x ∈ [("CONSTRUCT A", Instr.construct 0, (0x0000000000 : Descriptor)),
      ("CONSTRUCT D", .construct 3, 0x1800000000),
      ("READ A", .read 0, 0x2000000000),
      ("READ B", .read 1, 0x2800000000),
      ("WRITE A, 0", .write 0 0, 0x4000000000),
      ("WRITE B, -1", .write 1 0xFFFFFFFF, 0x48FFFFFFFF),
      ("WRITE C, 2147483647", .write 2 0x7FFFFFFF, 0x507FFFFFFF),
      ("WRITE D, -2147483648", .write 3 0x80000000, 0x5880000000),
      ("ISREV A", .isrev 0, 0x6000000000),
      ("SETREV A, 1", .setrev 0 true, 0x8400000000),
      ("SETREV A, 0", .setrev 0 false, 0x8000000000),
      ("TRIG A, 1, 0", .trig 0 true false, 0xA400000000),
      ("DIR A, 1, 1", .dir 0 true true, 0xC600000000),
      ("TRIG D, 0, 1", .trig 3 false true, 0xBA00000000),
      ("PINS A, 1, 0", .pins 0 true false, 0xE400000000),
      ("PINS C, 1, 1", .pins 2 true true, 0xF600000000)],
    readWritten x.1 = some x.2.1 ∧ decode x.2.2 = .ok x.2.1 ∧ encode x.2.1 = x.2.2) ∧
  decode 0x2100000000 = .error .reservedSet ∧
  decode 0x2000000001 = .error (.immSet .read) ∧
  decode 0x8200000000 = .error (.bSet .setrev)

/-- R54, encode then decode: no bit of any operand of any well-formed instruction is dropped. -/
def Obligations.DecodeOfEncodeIsTheInstruction : Prop :=
  ∀ i : Instr, i.wf = true → decode (encode i) = .ok i

/-- R54, decoding is injective on valid words: the instruction a valid word decodes to is well formed and encodes to that word. -/
def Obligations.EncodeOfDecodeIsTheWord : Prop :=
  ∀ (w : Descriptor) (i : Instr), decode w = .ok i → i.wf = true ∧ encode i = w

/-- R54, the counts of valid descriptors, operation by operation and in all. -/
def Obligations.ValidDescriptorCounts : Prop :=
  (∀ op : Op, Nat.card { w : Descriptor // ∃ i, decode w = .ok i ∧ i.op = op } =
    match op with
    | .construct => 4
    | .read => 4
    | .write => 4 * 2 ^ 32
    | .isrev => 4
    | .setrev => 8
    | .trig => 16
    | .dir => 16
    | .pins => 16) ∧
  Nat.card { w : Descriptor // ∃ i, decode w = .ok i } = 68 + 2 ^ 34

/-- R52: a word is invalid exactly when a field that must be 0 is not, equivalently when it matches no row of R48; an invalid word is
refused at the boundary on either port, whatever the state, once no raised event is still to come (what comes first while one is:
RaisedEventRunsItsHandler). A valid word is the operation of the row it matches. -/
def Obligations.InvalidDescriptorsAreRefused : Prop :=
  ∀ w : Descriptor,
    let f := Fields.ofWord w
    let op := Op.ofCode f.op
    ((∃ e, decode w = .error e) ↔
      f.z = true ∨
      ((f.a = true ∨ f.b = true) ∧ (op = .construct ∨ op = .read ∨ op = .write ∨ op = .isrev)) ∨
      (f.b = true ∧ op = .setrev) ∨
      (f.imm ≠ 0 ∧ op ≠ .write)) ∧
    ((∃ e, decode w = .error e) ↔ ∀ r ∈ opcodeRows, w &&& r.mask ≠ r.pattern) ∧
    (∀ i, decode w = .ok i → ∀ r ∈ opcodeRows, w &&& r.mask = r.pattern → r.op = i.op) ∧
    (∀ e, decode w = .error e → ∀ (s : State) (p : Port) (placement : Schedule) (rest : List Input),
      s.settled → s.inputs = .op p w placement :: rest → step s = .refused (.invalidDescriptor e))

/-! ## The step (00_scope.md, 43_dispatch_and_pins.md) -/

/-- R7: an operation that arrives, decodes, and is accepted by its port is run, on the state in which it has been taken from the inputs,
its placement of two events holds (logs 1 and 6), and a step has come before the raised events (log 5). Past the command port every
operation is accepted (R112), on it every host operation is (R94). It is run whenever no raised event is due and, for a sampling
instant, its channel has no raised event: so every operation but that comes between two events that leave room for it (R7, R41e,
R93). With no event raised it is run on the state with its inputs and placement taken, and nothing else. -/
def Obligations.StepRunsTheDecodedOperation : Prop :=
  ∀ (s : State) (p : Port) (w : Descriptor) (placement : Schedule) (rest : List Input) (i : Instr),
    s.inputs = .op p w placement :: rest → decode w = .ok i → p = .direct ∨ i.op.issuedBy = .host →
    ((∀ c r es, s.raised c = r :: es → r.room ≠ 0) → (i.op = .pins → ∀ c, i.ch = c.index → s.raised c = []) →
      step s = exec i { s.age with inputs := rest, schedule := placement }) ∧
    (s.settled → step s = exec i { s with inputs := rest, schedule := placement })

/-- R94, `CMD_ACCEPTS_EVENTS`: TRIG, DIR or PINS on the command port is run when the port accepts events and refused when it does not. -/
def Obligations.CommandPortTreatsEventsAsConfigured : Prop :=
  ∀ (s : State) (w : Descriptor) (placement : Schedule) (rest : List Input) (i : Instr),
    s.settled → s.inputs = .op .cmd w placement :: rest → decode w = .ok i → i.op.issuedBy ≠ .host →
    step s = if Config.cmdAcceptsEvents = true then exec i { s with inputs := rest, schedule := placement }
      else .refused (.notAHostOperation i.op)

/-- R11, R89, R105, R135 (logs 5 and 6, the model's form): a raised event is a step of its own, its handler's operation with the levels of
its sampling instant, after which it is no longer raised; nothing is taken from the inputs. The oldest event of a channel has its turn
when it is due (the first channel's of several); else when a sampling instant of its channel is presented; and when nothing, or an
invalid descriptor, is presented, the first channel's that has one. -/
def Obligations.RaisedEventRunsItsHandler : Prop :=
  ∀ (s : State) (c : Channel) (r : Raised) (es : List Raised), s.raised c = r :: es → noReset s.inputs →
    let run := exec (r.event.instr c) (s.age.setChan c { s.age.chan c with raised := es })
    (r.room = 0 → (∀ c' r' es', c'.index < c.index → s.raised c' = r' :: es' → r'.room ≠ 0) → step s = run) ∧
    ((∀ c' r' es', s.raised c' = r' :: es' → r'.room ≠ 0) →
      (∀ w placement rest i, s.inputs = .op .direct w placement :: rest → decode w = .ok i → i.op = .pins → i.ch = c.index →
        step s = run) ∧
      ((∀ c' : Channel, c'.index < c.index → s.raised c' = []) →
        (s.inputs = [] ∨ ∃ p w placement rest e, s.inputs = .op p w placement :: rest ∧ decode w = .error e) → step s = run))

/-- R117, R119: reset, whenever it comes, puts the block in the reset state whatever it held, and only the inputs that are not the
block's own stay. -/
def Obligations.ResetDiscardsEverything : Prop :=
  ∀ (s : State) (rest : List Input), s.inputs = .rst :: rest → step s = .next { State.reset with inputs := rest }

/-- R27, R28: after reset no channel is claimed, no counter and no flag has a value, no level has been seen, no event has been delivered
and no fault is recorded. -/
def Obligations.ResetState : Prop :=
  (∀ c, State.reset.claimed c = false ∧ State.reset.position c = none ∧ State.reset.reversed c = none ∧
    State.reset.tPrev c = none ∧ State.reset.dPrev c = none) ∧
  State.reset.started = false ∧ State.reset.fault = none

/-- R135: every operation answers a next state, in every state and for every operand; and no step ends in `Host.Outcome.fault`, a fault
of R96 being a next state with its record set (the model's choice, log 3). -/
def Obligations.EveryOperationEndsInOneStep : Prop :=
  (∀ (i : Instr) (s : State), ∃ t, exec i s = .next t) ∧ ∀ (s : State) (f : Fault), step s ≠ .fault f

/-! ## Construction (40_construction.md) -/

/-- R61, R62, R63, R99, R101: `CONSTRUCT c` claims an unclaimed channel with `position` 0 and `reversed` 0 while no event has been
delivered, and leaves its previous levels, `started`, the fault record and the other channels alone; on a claimed channel it raises
`FAULT_RECLAIM`, whether or not events have started; on an unclaimed one after the first event, `FAULT_LATE_CONSTRUCT`. -/
def Obligations.ConstructClaimsOnceBeforeEvents : Prop :=
  ∀ (s : State) (c : Channel),
    (s.claimed c = true → exec (.construct c.index) s = .next (faulted (.reclaim c) s)) ∧
    (s.claimed c = false → s.started = true → exec (.construct c.index) s = .next (faulted (.lateConstruct c) s)) ∧
    (s.claimed c = false → s.started = false →
      ∃ t, exec (.construct c.index) s = .next t ∧
        t.claimed c = true ∧ t.position c = some 0 ∧ t.reversed c = some false ∧
        t.tPrev c = s.tPrev c ∧ t.dPrev c = s.dPrev c ∧ t.raised c = s.raised c ∧
        t.started = s.started ∧ t.fault = s.fault ∧ t.out = .none ∧ SameOutside c s t)

/-! ## Host accesses (41_host_access.md) -/

/-- R66: `READ c` puts `position[c]` on the result and changes nothing else; on an unclaimed channel it raises `FAULT_UNCLAIMED`. -/
def Obligations.ReadReturnsPosition : Prop :=
  ∀ (s : State) (c : Channel),
    (∀ p, s.position c = some p → exec (.read c.index) s = .next { s with out := .result p }) ∧
    (s.claimed c = false → exec (.read c.index) s = .next (faulted (.unclaimed c .read) s))

/-- R67: `WRITE c, n` makes `position[c]` `n`, whatever it held and whatever `n` is, and changes nothing else; on an unclaimed channel it
raises `FAULT_UNCLAIMED`. -/
def Obligations.WriteOverwritesPosition : Prop :=
  ∀ (s : State) (c : Channel) (n : Word),
    (s.claimed c = true →
      ∃ t, exec (.write c.index n) s = .next t ∧
        t.position c = some n ∧ t.reversed c = s.reversed c ∧ t.claimed c = true ∧
        t.tPrev c = s.tPrev c ∧ t.dPrev c = s.dPrev c ∧ t.raised c = s.raised c ∧
        t.started = s.started ∧ t.fault = s.fault ∧ t.out = .none ∧ SameOutside c s t) ∧
    (s.claimed c = false → exec (.write c.index n) s = .next (faulted (.unclaimed c .write) s))

/-- R69: `ISREV c` puts `reversed[c]`, zero-extended, on the result and changes nothing else; on an unclaimed channel it raises
`FAULT_UNCLAIMED`. -/
def Obligations.IsrevReturnsReversed : Prop :=
  ∀ (s : State) (c : Channel),
    (∀ r, s.reversed c = some r → exec (.isrev c.index) s = .next { s with out := .result (if r then 1 else 0) }) ∧
    (s.claimed c = false → exec (.isrev c.index) s = .next (faulted (.unclaimed c .isrev) s))

/-- R70: `SETREV c, b` makes `reversed[c]` `b` and changes nothing else, the counter included; on an unclaimed channel it raises
`FAULT_UNCLAIMED`. -/
def Obligations.SetrevWritesReversed : Prop :=
  ∀ (s : State) (c : Channel) (b : Bool),
    (s.claimed c = true →
      ∃ t, exec (.setrev c.index b) s = .next t ∧
        t.reversed c = some b ∧ t.position c = s.position c ∧ t.claimed c = true ∧
        t.tPrev c = s.tPrev c ∧ t.dPrev c = s.dPrev c ∧ t.raised c = s.raised c ∧
        t.started = s.started ∧ t.fault = s.fault ∧ t.out = .none ∧ SameOutside c s t) ∧
    (s.claimed c = false → exec (.setrev c.index b) s = .next (faulted (.unclaimed c .setrev) s))

/-- R72, the laws of the host accesses of a claimed channel: (a) what is written is read; (b) two reads agree; (c) the flag set is the flag
read; (d) a second write replaces a first; (e) WRITE and SETREV commute; (f) a host access commutes with every operation of another
channel, in all but the port of the last step. -/
def Obligations.HostAccessLaws : Prop :=
  ∀ (s : State) (c : Channel), s.claimed c = true →
    (∀ n, ∃ t, runAll [.write c.index n, .read c.index] s = .next t ∧ t.out = .result n) ∧
    (∃ t u p, exec (.read c.index) s = .next t ∧ exec (.read c.index) t = .next u ∧ t.out = .result p ∧ u.out = .result p) ∧
    (∀ b, ∃ t, runAll [.setrev c.index b, .isrev c.index] s = .next t ∧ t.out = .result (if b then 1 else 0)) ∧
    (∀ m n, ∃ t, runAll [.write c.index m, .write c.index n] s = .next t ∧ exec (.write c.index n) s = .next t) ∧
    (∀ n b, ∃ t, runAll [.write c.index n, .setrev c.index b] s = .next t ∧
      runAll [.setrev c.index b, .write c.index n] s = .next t) ∧
    (∀ (i j : Instr) (c' : Channel), i.ch = c.index → i.op ∈ [Op.read, .write, .isrev, .setrev] → j.ch = c'.index → c' ≠ c →
      ∃ t u, runAll [i, j] s = .next t ∧ runAll [j, i] s = .next u ∧ t.quiet = u.quiet)

/-- R38: the two reads change no state; two equal writes leave the state of one; the same edge event twice changes the counter by twice
its ±1. -/
def Obligations.ReadsAreSilentWritesIdempotent : Prop :=
  ∀ (s : State) (c : Channel), s.claimed c = true →
    (∃ t, exec (.read c.index) s = .next t ∧ t.quiet = s.quiet) ∧
    (∃ t, exec (.isrev c.index) s = .next t ∧ t.quiet = s.quiet) ∧
    (∀ n, ∃ t, exec (.write c.index n) s = .next t ∧ exec (.write c.index n) t = .next t) ∧
    (∀ b, ∃ t, exec (.setrev c.index b) s = .next t ∧ exec (.setrev c.index b) t = .next t) ∧
    (∀ (e : EdgeEvent) (p : Word), s.position c = some p → ∃ t u, exec (e.instr c) s = .next t ∧ exec (e.instr c) t = .next u ∧
      (t.position c = some (p + 1) ∧ u.position c = some (p + 2) ∨
        t.position c = some (p - 1) ∧ u.position c = some (p - 2)))

/-! ## The edge handlers (42_edge_handlers.md) -/

/-- R74, R78: `TRIG c, T, D` on a claimed channel increments the counter when `T XOR D XOR reversed` is 1 and decrements it otherwise, wrapped
to 32 bits, sets `started`, and changes nothing else; on an unclaimed channel it raises `FAULT_UNCLAIMED` and changes nothing. -/
def Obligations.TrigCountsByItsPredicate : Prop :=
  ∀ (s : State) (c : Channel) (T D : Bool),
    (∀ p r, s.position c = some p → s.reversed c = some r →
      ∃ t, exec (.trig c.index T D) s = .next t ∧
        t.position c = some (if (T ^^ D ^^ r) = true then BitVec.ofInt 32 (p.toInt + 1) else BitVec.ofInt 32 (p.toInt - 1)) ∧
        t.reversed c = some r ∧ t.claimed c = true ∧
        t.tPrev c = s.tPrev c ∧ t.dPrev c = s.dPrev c ∧ t.raised c = s.raised c ∧
        t.started = true ∧ t.fault = s.fault ∧ t.out = .none ∧ SameOutside c s t) ∧
    (s.claimed c = false → exec (.trig c.index T D) s = .next (faulted (.unclaimed c .trig) s))

/-- R76, R78: `DIR c, T, D` on a claimed channel increments the counter when `(NOT T) XOR D XOR reversed` is 1 and decrements it otherwise,
wrapped to 32 bits, sets `started`, and changes nothing else; on an unclaimed channel it raises `FAULT_UNCLAIMED` and changes
nothing. -/
def Obligations.DirCountsByItsPredicate : Prop :=
  ∀ (s : State) (c : Channel) (T D : Bool),
    (∀ p r, s.position c = some p → s.reversed c = some r →
      ∃ t, exec (.dir c.index T D) s = .next t ∧
        t.position c = some (if ((!T) ^^ D ^^ r) = true then BitVec.ofInt 32 (p.toInt + 1) else BitVec.ofInt 32 (p.toInt - 1)) ∧
        t.reversed c = some r ∧ t.claimed c = true ∧
        t.tPrev c = s.tPrev c ∧ t.dPrev c = s.dPrev c ∧ t.raised c = s.raised c ∧
        t.started = true ∧ t.fault = s.fault ∧ t.out = .none ∧ SameOutside c s t) ∧
    (s.claimed c = false → exec (.dir c.index T D) s = .next (faulted (.unclaimed c .dir) s))

/-- R77: for the same channel, levels and flag the two handlers move the counter in opposite directions, and one after the other, in
either order, leaves it where it was. -/
def Obligations.HandlersAreOpposite : Prop :=
  ∀ (s : State) (c : Channel) (T D : Bool) (p : Word), s.position c = some p →
    (∃ t u, exec (.trig c.index T D) s = .next t ∧ exec (.dir c.index T D) s = .next u ∧
      (t.position c = some (p + 1) ∧ u.position c = some (p - 1) ∨
        t.position c = some (p - 1) ∧ u.position c = some (p + 1))) ∧
    (∃ t, runAll [.trig c.index T D, .dir c.index T D] s = .next t ∧ t.position c = some p) ∧
    (∃ t, runAll [.dir c.index T D, .trig c.index T D] s = .next t ∧ t.position c = some p)

/-- R79: an edge event changes the signed value of the counter by exactly +1 or -1, but at the two ends of the range, where it wraps, and
no fault is raised. -/
def Obligations.CounterIsExactButWrapsAtTheEnds : Prop :=
  ∀ (s : State) (c : Channel) (e : EdgeEvent) (p : Word) (r : Bool), s.position c = some p → s.reversed c = some r →
    ∃ t q, exec (e.instr c) s = .next t ∧ t.position c = some q ∧ t.fault = s.fault ∧ t.out = .none ∧
      (cw e.line e.T e.D r = true →
        (p.toInt ≠ 2147483647 → q.toInt = p.toInt + 1) ∧ (p.toInt = 2147483647 → q.toInt = -2147483648)) ∧
      (cw e.line e.T e.D r = false →
        (p.toInt ≠ -2147483648 → q.toInt = p.toInt - 1) ∧ (p.toInt = -2147483648 → q.toInt = 2147483647))

/-- R80: under the same edge events, two runs on claimed channels that start with opposite `reversed` flags move their counters by opposite
amounts: event by event (the change `q - p` made by the event that follows any sequence), and so over the whole sequence. -/
def Obligations.ReversalNegatesEveryDelta : Prop :=
  ∀ (c : Channel) (es : List EdgeEvent) (e : EdgeEvent) (s s' : State) (p0 p0' : Word) (r : Bool),
    s.position c = some p0 → s.reversed c = some r → s'.position c = some p0' → s'.reversed c = some (!r) →
    ∃ t t' u u' p p' q q',
      runAll (es.map (EdgeEvent.instr c)) s = .next t ∧ runAll (es.map (EdgeEvent.instr c)) s' = .next t' ∧
      exec (e.instr c) t = .next u ∧ exec (e.instr c) t' = .next u' ∧
      t.position c = some p ∧ t'.position c = some p' ∧ u.position c = some q ∧ u'.position c = some q' ∧
      q - p = -(q' - p') ∧ p - p0 = p0' - p'

/-- R106: two edge events of one channel, whichever lines raised them, leave the same state in both orders. -/
def Obligations.EdgeEventsCommute : Prop :=
  ∀ (s : State) (c : Channel) (e e' : EdgeEvent), s.claimed c = true →
    ∃ t, runAll [e.instr c, e'.instr c] s = .next t ∧ runAll [e'.instr c, e.instr c] s = .next t

/-- R41(c), R126: a READ concurrent with one edge event of its channel returns the value before it or the value one tick away, according
to which comes first. -/
def Obligations.ReadRaceSeesOneOfTwoValues : Prop :=
  ∀ (s : State) (c : Channel) (e : EdgeEvent) (p : Word) (r : Bool), s.position c = some p → s.reversed c = some r →
    (∃ t u, exec (.read c.index) s = .next t ∧ t.out = .result p ∧ exec (e.instr c) t = .next u ∧
      u.position c = some (if cw e.line e.T e.D r = true then p + 1 else p - 1)) ∧
    (∃ t, runAll [e.instr c, .read c.index] s = .next t ∧
      t.out = .result (if cw e.line e.T e.D r = true then p + 1 else p - 1))

/-- R41(d), R125, R128: a WRITE concurrent with one edge event of its channel leaves `n` when the event comes first (the tick is lost) and
`n` plus or minus 1 when the write does; a SETREV concurrent with one decides that event's direction only when it comes first. -/
def Obligations.WriteAndSetrevRacesHaveTwoOutcomes : Prop :=
  ∀ (s : State) (c : Channel) (e : EdgeEvent) (p n : Word) (r b : Bool), s.position c = some p → s.reversed c = some r →
    (∃ t, runAll [e.instr c, .write c.index n] s = .next t ∧ t.position c = some n) ∧
    (∃ t, runAll [.write c.index n, e.instr c] s = .next t ∧
      t.position c = some (if cw e.line e.T e.D r = true then n + 1 else n - 1)) ∧
    (∃ t, runAll [e.instr c, .setrev c.index b] s = .next t ∧ t.reversed c = some b ∧
      t.position c = some (if cw e.line e.T e.D r = true then p + 1 else p - 1)) ∧
    (∃ t, runAll [.setrev c.index b, e.instr c] s = .next t ∧ t.reversed c = some b ∧
      t.position c = some (if cw e.line e.T e.D b = true then p + 1 else p - 1))

/-! ## Sampling instants (43_dispatch_and_pins.md) -/

/-- R89, R90, R135: `PINS c, t, d` on a claimed channel, no event being still to come, and the steps of the events it raises, one for each
changed line (of two, nothing coming between them: a placement the statement fixes, log 6). The levels are latched; one changed line
moves the counter as its handler does, both leave it where it was, none moves nothing, and a line with no earlier level has not changed;
`started` is set when an event was raised. Nothing else changes and no fault is raised. -/
def Obligations.PinsCountsTheChangedLines : Prop :=
  ∀ (s : State) (c : Channel) (t d : Bool) (p : Word) (r : Bool) (placement : Schedule) (rest : List Input),
    s.position c = some p → s.reversed c = some r → s.settled → noReset rest →
    s.inputs = presents (.pins c.index t d) placement :: rest →
    let te := s.tPrev c = some (!t)
    let de := s.dPrev c = some (!d)
    (te ∧ de → placement.between = 0) →
    ∀ n, (te ∧ de → n = 3) → (te ∧ ¬de → n = 2) → (¬te ∧ de → n = 2) → (¬te ∧ ¬de → n = 1) →
    ∃ u, runSteps n s = .next u ∧
      u.tPrev c = some t ∧ u.dPrev c = some d ∧ u.reversed c = some r ∧ u.claimed c = true ∧ u.settled ∧ u.inputs = rest ∧
      (te ∧ de → u.position c = some p ∧ u.started = true) ∧
      (te ∧ ¬de → u.position c = some (if (t ^^ d ^^ r) = true then p + 1 else p - 1) ∧ u.started = true) ∧
      (¬te ∧ de → u.position c = some (if ((!t) ^^ d ^^ r) = true then p + 1 else p - 1) ∧ u.started = true) ∧
      (¬te ∧ ¬de → u.position c = some p ∧ u.started = s.started) ∧
      u.fault = s.fault ∧ u.out = .none ∧ ∀ c', c' ≠ c → u.chan c' = s.chan c'

/-- PINS in every state and for every placement (R89, R93; raised events and placements in State are the model's form, logs 5 and 6): the
levels are latched, and each changed line of a claimed channel raises one event, with the new levels. Of two, the placement says which
comes first and how many steps of others may come before the second; none taken from the inputs comes before the first. Nothing else
changes, the counter and `started` included: each event is a further step. -/
def Obligations.PinsPlacesItsEvents : Prop :=
  ∀ (s : State) (c : Channel) (t d : Bool),
    let te := s.claimed c = true ∧ s.tPrev c = some (!t)
    let de := s.claimed c = true ∧ s.dPrev c = some (!d)
    let onT := EdgeEvent.mk .trigger t d
    let onD := EdgeEvent.mk .direction t d
    let n := s.schedule.between
    ∀ es : List Raised,
      (te ∧ de → es = if s.schedule.first = .trigger then [⟨onT, 0⟩, ⟨onD, n⟩] else [⟨onD, 0⟩, ⟨onT, n⟩]) →
      (te ∧ ¬de → es = [⟨onT, 0⟩]) → (¬te ∧ de → es = [⟨onD, 0⟩]) → (¬te ∧ ¬de → es = []) →
      ∃ u, exec (.pins c.index t d) s = .next u ∧
        u.chan c = { s.chan c with tPrev := some t, dPrev := some d, raised := s.raised c ++ es } ∧
        u.started = s.started ∧ u.fault = s.fault ∧ u.out = .none ∧ SameOutside c s u

/-- R105 (logs 5 and 6, the model's form): from a state of the invariant every raised event has its step, in its order, after no more steps
than its room and one for each event of the other channels (there are at most 6), whatever is presented but reset; and a sampling
instant is taken only when no event of its channel is still to come, so none is queued behind a later instant. -/
def Obligations.RaisedEventsGetTheirTurn : Prop :=
  (∀ (s : State) (c : Channel) (r : Raised) (es : List Raised), s.Inv → s.raised c = r :: es →
    ∃ k u, k ≤ r.room + 6 ∧ runSteps k s = .next u ∧
      (¬noReset u.inputs ∨
        (∃ n, u.raised c = ⟨r.event, n⟩ :: es) ∧
          step u = exec (r.event.instr c) (u.age.setChan c { u.age.chan c with raised := es }))) ∧
  (∀ (s t : State) (c : Channel) (p : Port) (w : Descriptor) (placement : Schedule) (rest : List Input) (i : Instr),
    s.inputs = .op p w placement :: rest → decode w = .ok i → i.op = .pins → i.ch = c.index →
    step s = .next t → t.inputs = rest → s.raised c = [])

/-- R90, R91, for every placement: a first sample raises no event; the lines of an unclaimed channel raise none either, but their levels
are latched, and what changed before construction raises nothing after it, while the first change after it is an edge. -/
def Obligations.FirstSamplesAndUnclaimedLinesRaiseNothing : Prop :=
  ∀ (s : State) (c : Channel) (t d : Bool),
    (s.tPrev c = none → s.dPrev c = none → ∃ u, exec (.pins c.index t d) s = .next u ∧
      u.chan c = { s.chan c with tPrev := some t, dPrev := some d } ∧ u.started = s.started ∧ u.fault = s.fault ∧
      u.out = .none ∧ SameOutside c s u) ∧
    (s.claimed c = false → ∃ u, exec (.pins c.index t d) s = .next u ∧
      u.chan c = { s.chan c with tPrev := some t, dPrev := some d } ∧ u.started = s.started ∧ u.fault = s.fault ∧
      u.out = .none ∧ SameOutside c s u) ∧
    (s.claimed c = false → s.started = false → s.settled → ∀ (a b : Bool) (x y z : Schedule) (rest : List Input), noReset rest →
      s.inputs = presents (.pins c.index t d) x :: presents (.construct c.index) y :: presents (.pins c.index a b) z :: rest →
      (a = t → b = d → ∃ u, runSteps 3 s = .next u ∧ u.inputs = rest ∧ u.settled ∧ u.position c = some 0 ∧ u.started = false) ∧
      (a = !t → b = d → ∃ u, runSteps 4 s = .next u ∧ u.inputs = rest ∧ u.settled ∧
        u.position c = some (if (a ^^ b) = true then 1 else -1) ∧ u.started = true) ∧
      (a = t → b = !d → ∃ u, runSteps 4 s = .next u ∧ u.inputs = rest ∧ u.settled ∧
        u.position c = some (if ((!a) ^^ b) = true then 1 else -1) ∧ u.started = true))

/-- R93: both lines of a claimed channel change in one sampling instant, no event being still to come. Two events are raised, each a step
of its own, and with nothing coming between them the counter ends where it was, in either order. A READ that comes between them sees
one tick up or down, according to the order, and the next step, whatever is presented but reset, is the other event, which brings the
counter back. That raised events are held in State, and the placements the two clauses fix, are the model's form (logs 5 and 6). -/
def Obligations.BothLinesAtOnceCancel : Prop :=
  ∀ (s : State) (c : Channel) (t d : Bool) (p : Word) (r : Bool) (first : Line) (placement : Schedule) (rest : List Input),
    s.position c = some p → s.reversed c = some r → s.tPrev c = some (!t) → s.dPrev c = some (!d) → s.settled → noReset rest →
    (s.inputs = presents (.pins c.index t d) ⟨first, 0⟩ :: rest →
      ∃ u, runSteps 3 s = .next u ∧ u.position c = some p ∧ u.settled ∧ u.inputs = rest) ∧
    (s.inputs = presents (.pins c.index t d) ⟨first, 1⟩ :: .op .cmd (encode (.read c.index)) placement :: rest →
      ∃ v w, runSteps 3 s = .next v ∧ v.out = .result (if cw first t d r = true then p + 1 else p - 1) ∧
        step v = .next w ∧ w.position c = some p ∧ w.settled ∧ w.inputs = rest)

/-- R7, R41(e), R106: an event of another channel between the two events of one sampling instant. Nothing orders the two channels' events,
and their effects are those they have apart. (The placement with room for one step, and raised events in State, are the model's form,
logs 5 and 6.) -/
def Obligations.AnotherChannelsEventFallsBetween : Prop :=
  ∀ (s : State) (c c' : Channel) (t d : Bool) (p q : Word) (r b : Bool) (e : EdgeEvent) (first : Line) (placement : Schedule)
    (rest : List Input),
    c' ≠ c → s.position c = some p → s.reversed c = some r → s.position c' = some q → s.reversed c' = some b →
    s.tPrev c = some (!t) → s.dPrev c = some (!d) → s.settled → noReset rest →
    s.inputs = presents (.pins c.index t d) ⟨first, 1⟩ :: presents (e.instr c') placement :: rest →
    ∃ u v, runSteps 3 s = .next u ∧
      u.position c = some (if cw first t d r = true then p + 1 else p - 1) ∧
      u.position c' = some (if cw e.line e.T e.D b = true then q + 1 else q - 1) ∧
      step u = .next v ∧ v.position c = some p ∧ v.position c' = u.position c' ∧ v.settled ∧ v.inputs = rest

/-- R82, for every placement: on a claimed channel with `reversed` 0 and last levels (0,0), no event being still to come, one cycle in which
the trigger line leads adds 4 ticks, the opposite cycle takes 4, and a bounce of the trigger line takes back what it gave. -/
def Obligations.QuadratureCycleCountsFour : Prop :=
  ∀ (s : State) (c : Channel) (p : Word) (x y z v : Schedule) (rest : List Input),
    s.position c = some p → s.reversed c = some false → s.tPrev c = some false → s.dPrev c = some false → s.settled →
    noReset rest →
    (s.inputs = presents (.pins c.index true false) x :: presents (.pins c.index true true) y ::
        presents (.pins c.index false true) z :: presents (.pins c.index false false) v :: rest →
      ∃ u, runSteps 8 s = .next u ∧ u.position c = some (p + 4) ∧ u.settled ∧ u.inputs = rest) ∧
    (s.inputs = presents (.pins c.index false true) x :: presents (.pins c.index true true) y ::
        presents (.pins c.index true false) z :: presents (.pins c.index false false) v :: rest →
      ∃ u, runSteps 8 s = .next u ∧ u.position c = some (p - 4) ∧ u.settled ∧ u.inputs = rest) ∧
    (s.inputs = presents (.pins c.index true false) x :: presents (.pins c.index false false) y :: rest →
      ∃ u, runSteps 4 s = .next u ∧ u.position c = some p ∧ u.settled ∧ u.inputs = rest)

/-- R135 (the list of inputs is the model's form of the trace, log 1, and raised events in State are, log 5): from a state with no event
still to come, a trace of `k` valid operations that their ports accept takes at least `k` steps and at most two more for each PINS among
them (one for each event it raises: PinsCountsTheChangedLines), so exactly `k` when none is a PINS; and the run ends there, at the end of
the trace, no event being still to come. -/
def Obligations.TraceTakesAStepPerOperationAndEvent : Prop :=
  ∀ s : State, s.settled →
    (∀ x ∈ s.inputs, ∃ p w placement i, x = .op p w placement ∧ decode w = .ok i ∧ (p = .direct ∨ i.op.issuedBy = .host)) →
    let pins := s.inputs.countP fun x =>
      match x with
      | .op _ w _ => Op.ofCode (Fields.ofWord w).op == .pins
      | .rst => false
    ∃ n t, runSteps n s = .next t ∧ t.inputs = [] ∧ t.settled ∧ step t = .refused .endOfInputs ∧
      s.inputs.length ≤ n ∧ n ≤ s.inputs.length + 2 * pins

/-! ## Faults (60_exceptions.md) -/

/-- R97: in every state, an operation that raises a fault changes nothing but the record, which keeps the first
fault, and produces no result; one that raises none leaves the record as it was. No step but reset clears the record. -/
def Obligations.FaultsChangeOnlyTheRecord : Prop :=
  (∀ (s t : State) (i : Instr), exec i s = .next t →
    (∀ f, t.out = .fault f → t = faulted f s) ∧ ((∀ f, t.out ≠ .fault f) → t.fault = s.fault)) ∧
  (∀ (s t : State) (f : Fault), s.fault = some f → (∀ rest, s.inputs ≠ .rst :: rest) → step s = .next t → t.fault = some f)

/-- R98: TRIG, DIR and the four host accesses on an unclaimed channel raise `FAULT_UNCLAIMED` with the channel and the operation; PINS never
raises it, nor any other fault. -/
def Obligations.UnclaimedChannelFaults : Prop :=
  (∀ (s : State) (c : Channel) (i : Instr), i.ch = c.index → i.op ∈ [Op.trig, .dir, .read, .write, .isrev, .setrev] →
    s.claimed c = false → exec i s = .next (faulted (.unclaimed c i.op) s)) ∧
  (∀ (s : State) (c : Channel) (t d : Bool),
    ∃ u, exec (.pins c.index t d) s = .next u ∧ u.fault = s.fault ∧ u.out = .none)

/-- R100: every operation on a channel number above 3 raises `FAULT_BAD_CHANNEL` with that number and changes nothing else; no step ever
raises it, since no descriptor spells such a number. -/
def Obligations.BadChannelFaultsAndIsNeverStepped : Prop :=
  (∀ (s : State) (i : Instr), 4 ≤ i.ch → exec i s = .next (faulted (.badChannel i.ch i.op) s)) ∧
  (∀ (s t : State), step s = .next t → ∀ n op, t.out ≠ .fault (.badChannel n op))

/-! ## Rules of the whole machine (10_state.md, 43_dispatch_and_pins.md) -/

/-- R13, R14, R16, R23, R32: who writes what. A location of the channel space changes only by the operations R32 lists for it, on its own
channel; `claimed` only by CONSTRUCT; the previous levels only by PINS; `started` only by TRIG, DIR or PINS, and only to 1; events of a channel are raised only by PINS of it. -/
def Obligations.OnlyTheListedOperationsWrite : Prop :=
  ∀ (s t : State) (i : Instr) (c : Channel), exec i s = .next t →
    (t.load c .pos ≠ s.load c .pos → i.ch = c.index ∧ i.op ∈ [Op.construct, .write, .trig, .dir, .pins]) ∧
    (t.load c .rev ≠ s.load c .rev → i.ch = c.index ∧ i.op ∈ [Op.construct, .setrev]) ∧
    (t.claimed c ≠ s.claimed c → i = .construct c.index) ∧
    (t.tPrev c ≠ s.tPrev c ∨ t.dPrev c ≠ s.dPrev c → i.ch = c.index ∧ i.op = .pins) ∧
    (t.started ≠ s.started → i.op ∈ [Op.trig, .dir, .pins] ∧ t.started = true) ∧
    (t.raised c ≠ s.raised c → i.ch = c.index ∧ i.op = .pins)

/-- R85, channel isolation. An operation of one channel leaves every other channel alone; and what it makes of its own channel and of the
ports depends only on that channel, for PINS on the placement (log 6), and for CONSTRUCT on `started`. -/
def Obligations.ChannelsAreIsolated : Prop :=
  (∀ (s t : State) (i : Instr) (c : Channel), exec i s = .next t → i.ch ≠ c.index → t.chan c = s.chan c) ∧
  (∀ (s s' t t' : State) (i : Instr) (c : Channel), i.ch = c.index → s.chan c = s'.chan c →
    (i.op = .pins → s.schedule = s'.schedule) →
    (i.op = .construct → s.started = s'.started) → exec i s = .next t → exec i s' = .next t' →
    t.chan c = t'.chan c ∧ t.out = t'.out)

/-- The invariant holds after reset. -/
def Obligations.ResetMeetsTheInvariant : Prop := State.reset.Inv

/-- Every step keeps the invariant: each channel's levels are both known or neither is (R22); its raised events are of different lines, have
the latched levels, and stand only on a claimed channel (R92, R93, R105; the field is the model's, log 5); and once an event has been
delivered some channel is claimed (R30d). -/
def Obligations.EveryStepKeepsTheInvariant : Prop :=
  ∀ s t : State, s.Inv → step s = .next t → t.Inv

/-- R30, of every step from a state that meets the invariant: (a) `position` and `reversed` have values exactly when `claimed` is 1;
(b), (c), (f) `claimed`, `started` and the fault record are cleared by nothing but reset; (d) `started` implies a claimed channel;
(e) an operation of one channel changes no state of another. -/
def Obligations.StateInvariantsHoldAlongEveryStep : Prop :=
  (∀ s t : State, s.Inv → step s = .next t →
    (∀ c, ((∃ p, t.position c = some p) ↔ t.claimed c = true) ∧ ((∃ r, t.reversed c = some r) ↔ t.claimed c = true)) ∧
    ((∀ rest, s.inputs ≠ .rst :: rest) →
      (∀ c, s.claimed c = true → t.claimed c = true) ∧ (s.started = true → t.started = true) ∧
      (∀ f, s.fault = some f → t.fault = some f)) ∧
    (t.started = true → ∃ c, t.claimed c = true)) ∧
  (∀ (s t : State) (i : Instr) (c c' : Channel), i.ch = c.index → c' ≠ c → exec i s = .next t → t.chan c' = s.chan c')
end

