-- ==== Sys2Proof/Laws/Encoding.lean ====
section
/-! SUPPORT. The descriptor's fields determine it and it determines them (R46); every operation code is used (R48). -/

namespace Sys2Proof

@[simp] theorem Op.ofCode_code (op : Op) : Op.ofCode op.code = op := by
  cases op <;> rfl

@[simp] theorem Op.code_ofCode (code : BitVec 3) : (Op.ofCode code).code = code := by
  revert code; decide

/-- Bit `i` of the descriptor with these fields (R46). -/
theorem Fields.toWord_getLsbD (f : Fields) (i : Nat) :
    f.toWord.getLsbD i =
      if i < 32 then f.imm.getLsbD i
      else if i = 32 then f.z
      else if i = 33 then f.b
      else if i = 34 then f.a
      else if i < 37 then f.ch.getLsbD (i - 35)
      else f.op.getLsbD (i - 37) := by
  have h : f.toWord.getLsbD i = BitVec.getLsbD (w := 3 + 2 + 1 + 1 + 1 + 32)
      (f.op ++ f.ch ++ BitVec.ofBool f.a ++ BitVec.ofBool f.b ++ BitVec.ofBool f.z ++ f.imm) i := rfl
  rw [h]
  simp only [BitVec.getLsbD_append, BitVec.getLsbD_ofBool]
  split_ifs <;> first | rfl | omega | simp_all

@[simp] theorem Fields.ofWord_toWord (f : Fields) : Fields.ofWord f.toWord = f := by
  have ha : (Fields.ofWord f.toWord).a = f.a := by simp only [Fields.ofWord, Fields.toWord_getLsbD]; rfl
  have hb : (Fields.ofWord f.toWord).b = f.b := by simp only [Fields.ofWord, Fields.toWord_getLsbD]; rfl
  have hz : (Fields.ofWord f.toWord).z = f.z := by simp only [Fields.ofWord, Fields.toWord_getLsbD]; rfl
  have ho : (Fields.ofWord f.toWord).op = f.op := by
    apply BitVec.eq_of_getLsbD_eq; intro i hi
    simp only [Fields.ofWord, BitVec.getLsbD_extractLsb', Fields.toWord_getLsbD]
    interval_cases i <;> simp
  have hc : (Fields.ofWord f.toWord).ch = f.ch := by
    apply BitVec.eq_of_getLsbD_eq; intro i hi
    simp only [Fields.ofWord, BitVec.getLsbD_extractLsb', Fields.toWord_getLsbD]
    interval_cases i <;> simp
  have hi : (Fields.ofWord f.toWord).imm = f.imm := by
    apply BitVec.eq_of_getLsbD_eq; intro i hi
    simp [Fields.ofWord, BitVec.getLsbD_extractLsb', Fields.toWord_getLsbD, hi, -BitVec.getLsbD_eq_getElem]
  cases f
  simp_all only [Fields.ofWord]

@[simp] theorem Fields.toWord_ofWord (w : Descriptor) : (Fields.ofWord w).toWord = w := by
  apply BitVec.eq_of_getLsbD_eq
  intro i hi
  rw [Fields.toWord_getLsbD]
  simp only [Fields.ofWord, BitVec.getLsbD_extractLsb']
  split_ifs with h0 h1 h2 h3 h4
  · simp [h0]
  · rw [h1]
  · rw [h2]
  · rw [h3]
  · rw [show 35 + (i - 35) = i by omega]; simp; omega
  · rw [show 37 + (i - 37) = i by omega]; simp; omega

theorem Fields.ofWord_injective {w w' : Descriptor} (h : Fields.ofWord w = Fields.ofWord w') : w = w' := by
  rw [← Fields.toWord_ofWord w, h, Fields.toWord_ofWord]

/-- The decoder answers an instruction exactly when no must-be-zero field is set, and then the one the fields spell (R52). -/
theorem decode_eq_ok {w : Descriptor} {i : Instr} :
    decode w = .ok i ↔ (Fields.ofWord w).violation = none ∧ (Fields.ofWord w).instr = i := by
  unfold decode
  cases (Fields.ofWord w).violation <;> simp

theorem decode_eq_error {w : Descriptor} {e : DecodeError} : decode w = .error e ↔ (Fields.ofWord w).violation = some e := by
  unfold decode
  cases (Fields.ofWord w).violation <;> simp

/-- The fields of an instruction never violate R52. -/
@[simp] theorem Instr.fields_violation (i : Instr) : i.fields.violation = none := by
  cases i <;> simp [Instr.fields, Fields.violation, Op.usesA, Op.usesB, Op.usesImm]

end Sys2Proof
end

