-- ==== Sys2Proof/Laws/State.lean ====
section
/-! SUPPORT. One lemma per field per update of the state, and the laws of the channel bank. -/

namespace Sys2Proof.Machine

/-! The bank: reading one channel after replacing one. -/

@[simp] theorem Bank.get_set (b : Bank) (c : Channel) (x : Chan) : (b.set c x).get c = x := by
  cases c <;> rfl

theorem Bank.get_set_of_ne (b : Bank) {c c' : Channel} (x : Chan) (h : c' ≠ c) :
    (b.set c x).get c' = b.get c' := by
  cases c <;> cases c' <;> first | rfl | exact absurd rfl h

@[simp] theorem Bank.set_get (b : Bank) (c : Channel) : b.set c (b.get c) = b := by
  cases c <;> rfl

@[simp] theorem Bank.set_set (b : Bank) (c : Channel) (x y : Chan) : (b.set c x).set c y = b.set c y := by
  cases c <;> rfl

theorem Bank.set_comm (b : Bank) {c c' : Channel} (x y : Chan) (h : c ≠ c') :
    (b.set c x).set c' y = (b.set c' y).set c x := by
  cases c <;> cases c' <;> first | rfl | exact absurd rfl h

theorem Bank.ext_get {b b' : Bank} (h : ∀ c, b.get c = b'.get c) : b = b' := by
  cases b; cases b'
  simp only [Bank.mk.injEq]
  exact ⟨h .A, h .B, h .C, h .D⟩

/-! Replacing one channel. -/

@[simp] theorem State.chan_setChan (s : State) (c : Channel) (x : Chan) : (s.setChan c x).chan c = x :=
  Bank.get_set _ _ _

theorem State.chan_setChan_of_ne (s : State) {c c' : Channel} (x : Chan) (h : c' ≠ c) :
    (s.setChan c x).chan c' = s.chan c' :=
  Bank.get_set_of_ne _ _ h

@[simp] theorem State.setChan_chan (s : State) (c : Channel) : s.setChan c (s.chan c) = s := by
  cases s; simp [State.setChan, State.chan]

@[simp] theorem State.setChan_setChan (s : State) (c : Channel) (x y : Chan) :
    (s.setChan c x).setChan c y = s.setChan c y := by
  simp [State.setChan]

theorem State.setChan_comm (s : State) {c c' : Channel} (x y : Chan) (h : c ≠ c') :
    (s.setChan c x).setChan c' y = (s.setChan c' y).setChan c x := by
  simp [State.setChan, Bank.set_comm _ _ _ h]

@[simp] theorem State.setChan_started (s : State) (c : Channel) (x : Chan) : (s.setChan c x).started = s.started := rfl
@[simp] theorem State.setChan_fault (s : State) (c : Channel) (x : Chan) : (s.setChan c x).fault = s.fault := rfl
@[simp] theorem State.setChan_out (s : State) (c : Channel) (x : Chan) : (s.setChan c x).out = s.out := rfl
@[simp] theorem State.setChan_schedule (s : State) (c : Channel) (x : Chan) : (s.setChan c x).schedule = s.schedule := rfl
@[simp] theorem State.setChan_inputs (s : State) (c : Channel) (x : Chan) : (s.setChan c x).inputs = s.inputs := rfl

/-! Replacing one channel's decoder. -/

@[simp] theorem State.decoder_setDecoder (s : State) (c : Channel) (d : Decoder) : (s.setDecoder c d).decoder c = some d := by
  simp [State.decoder, State.setDecoder]

theorem State.chan_setDecoder (s : State) (c : Channel) (d : Decoder) :
    (s.setDecoder c d).chan c = { s.chan c with decoder := some d } := by
  simp [State.setDecoder]

theorem State.chan_setDecoder_of_ne (s : State) {c c' : Channel} (d : Decoder) (h : c' ≠ c) :
    (s.setDecoder c d).chan c' = s.chan c' :=
  State.chan_setChan_of_ne _ _ h

@[simp] theorem State.claimed_setDecoder (s : State) (c : Channel) (d : Decoder) : (s.setDecoder c d).claimed c = true := by
  simp [State.claimed]

@[simp] theorem State.position_setDecoder (s : State) (c : Channel) (d : Decoder) :
    (s.setDecoder c d).position c = some d.position := by
  simp [State.position]

@[simp] theorem State.reversed_setDecoder (s : State) (c : Channel) (d : Decoder) :
    (s.setDecoder c d).reversed c = some d.reversed := by
  simp [State.reversed]

@[simp] theorem State.tPrev_setDecoder (s : State) (c c' : Channel) (d : Decoder) : (s.setDecoder c d).tPrev c' = s.tPrev c' := by
  by_cases h : c' = c
  · subst h; simp [State.tPrev, State.chan_setDecoder]
  · simp [State.tPrev, State.chan_setDecoder_of_ne _ _ h]

@[simp] theorem State.dPrev_setDecoder (s : State) (c c' : Channel) (d : Decoder) : (s.setDecoder c d).dPrev c' = s.dPrev c' := by
  by_cases h : c' = c
  · subst h; simp [State.dPrev, State.chan_setDecoder]
  · simp [State.dPrev, State.chan_setDecoder_of_ne _ _ h]

@[simp] theorem State.raised_setDecoder (s : State) (c c' : Channel) (d : Decoder) : (s.setDecoder c d).raised c' = s.raised c' := by
  by_cases h : c' = c
  · subst h; simp [State.raised, State.chan_setDecoder]
  · simp [State.raised, State.chan_setDecoder_of_ne _ _ h]

@[simp] theorem State.setDecoder_started (s : State) (c : Channel) (d : Decoder) : (s.setDecoder c d).started = s.started := rfl
@[simp] theorem State.setDecoder_fault (s : State) (c : Channel) (d : Decoder) : (s.setDecoder c d).fault = s.fault := rfl
@[simp] theorem State.setDecoder_out (s : State) (c : Channel) (d : Decoder) : (s.setDecoder c d).out = s.out := rfl
@[simp] theorem State.setDecoder_schedule (s : State) (c : Channel) (d : Decoder) : (s.setDecoder c d).schedule = s.schedule := rfl
@[simp] theorem State.setDecoder_inputs (s : State) (c : Channel) (d : Decoder) : (s.setDecoder c d).inputs = s.inputs := rfl

/-! A step without a result. -/

@[simp] theorem State.chan_noResult (s : State) (c : Channel) : (s.noResult).chan c = s.chan c := rfl
@[simp] theorem State.decoder_noResult (s : State) (c : Channel) : (s.noResult).decoder c = s.decoder c := rfl
@[simp] theorem State.claimed_noResult (s : State) (c : Channel) : (s.noResult).claimed c = s.claimed c := rfl
@[simp] theorem State.position_noResult (s : State) (c : Channel) : (s.noResult).position c = s.position c := rfl
@[simp] theorem State.reversed_noResult (s : State) (c : Channel) : (s.noResult).reversed c = s.reversed c := rfl
@[simp] theorem State.tPrev_noResult (s : State) (c : Channel) : (s.noResult).tPrev c = s.tPrev c := rfl
@[simp] theorem State.dPrev_noResult (s : State) (c : Channel) : (s.noResult).dPrev c = s.dPrev c := rfl
@[simp] theorem State.raised_noResult (s : State) (c : Channel) : (s.noResult).raised c = s.raised c := rfl
@[simp] theorem State.noResult_chans (s : State) : (s.noResult).chans = s.chans := rfl
@[simp] theorem State.noResult_started (s : State) : (s.noResult).started = s.started := rfl
@[simp] theorem State.noResult_fault (s : State) : (s.noResult).fault = s.fault := rfl
@[simp] theorem State.noResult_out (s : State) : (s.noResult).out = .none := rfl
@[simp] theorem State.noResult_schedule (s : State) : (s.noResult).schedule = s.schedule := rfl
@[simp] theorem State.noResult_inputs (s : State) : (s.noResult).inputs = s.inputs := rfl

/-! A step with a result. -/

@[simp] theorem State.chan_withResult (s : State) (w : Word) (c : Channel) : (s.withResult w).chan c = s.chan c := rfl
@[simp] theorem State.decoder_withResult (s : State) (w : Word) (c : Channel) : (s.withResult w).decoder c = s.decoder c := rfl
@[simp] theorem State.claimed_withResult (s : State) (w : Word) (c : Channel) : (s.withResult w).claimed c = s.claimed c := rfl
@[simp] theorem State.position_withResult (s : State) (w : Word) (c : Channel) : (s.withResult w).position c = s.position c := rfl
@[simp] theorem State.reversed_withResult (s : State) (w : Word) (c : Channel) : (s.withResult w).reversed c = s.reversed c := rfl
@[simp] theorem State.tPrev_withResult (s : State) (w : Word) (c : Channel) : (s.withResult w).tPrev c = s.tPrev c := rfl
@[simp] theorem State.dPrev_withResult (s : State) (w : Word) (c : Channel) : (s.withResult w).dPrev c = s.dPrev c := rfl
@[simp] theorem State.raised_withResult (s : State) (w : Word) (c : Channel) : (s.withResult w).raised c = s.raised c := rfl
@[simp] theorem State.withResult_chans (s : State) (w : Word) : (s.withResult w).chans = s.chans := rfl
@[simp] theorem State.withResult_started (s : State) (w : Word) : (s.withResult w).started = s.started := rfl
@[simp] theorem State.withResult_fault (s : State) (w : Word) : (s.withResult w).fault = s.fault := rfl
@[simp] theorem State.withResult_out (s : State) (w : Word) : (s.withResult w).out = .result w := rfl
@[simp] theorem State.withResult_schedule (s : State) (w : Word) : (s.withResult w).schedule = s.schedule := rfl
@[simp] theorem State.withResult_inputs (s : State) (w : Word) : (s.withResult w).inputs = s.inputs := rfl

/-! Raising a fault. -/

@[simp] theorem State.chan_raise (s : State) (f : Fault) (c : Channel) : (s.raise f).chan c = s.chan c := rfl
@[simp] theorem State.decoder_raise (s : State) (f : Fault) (c : Channel) : (s.raise f).decoder c = s.decoder c := rfl
@[simp] theorem State.claimed_raise (s : State) (f : Fault) (c : Channel) : (s.raise f).claimed c = s.claimed c := rfl
@[simp] theorem State.position_raise (s : State) (f : Fault) (c : Channel) : (s.raise f).position c = s.position c := rfl
@[simp] theorem State.reversed_raise (s : State) (f : Fault) (c : Channel) : (s.raise f).reversed c = s.reversed c := rfl
@[simp] theorem State.tPrev_raise (s : State) (f : Fault) (c : Channel) : (s.raise f).tPrev c = s.tPrev c := rfl
@[simp] theorem State.dPrev_raise (s : State) (f : Fault) (c : Channel) : (s.raise f).dPrev c = s.dPrev c := rfl
@[simp] theorem State.raised_raise (s : State) (f : Fault) (c : Channel) : (s.raise f).raised c = s.raised c := rfl
@[simp] theorem State.raise_chans (s : State) (f : Fault) : (s.raise f).chans = s.chans := rfl
@[simp] theorem State.raise_started (s : State) (f : Fault) : (s.raise f).started = s.started := rfl
@[simp] theorem State.raise_fault (s : State) (f : Fault) : (s.raise f).fault = s.fault.or (some f) := rfl
@[simp] theorem State.raise_out (s : State) (f : Fault) : (s.raise f).out = .fault f := rfl
@[simp] theorem State.raise_schedule (s : State) (f : Fault) : (s.raise f).schedule = s.schedule := rfl
@[simp] theorem State.raise_inputs (s : State) (f : Fault) : (s.raise f).inputs = s.inputs := rfl

/-! A step coming before the raised events. -/

@[simp] theorem Chan.age_decoder (x : Chan) : x.age.decoder = x.decoder := by unfold Chan.age; split <;> rfl
@[simp] theorem Chan.age_tPrev (x : Chan) : x.age.tPrev = x.tPrev := by unfold Chan.age; split <;> rfl
@[simp] theorem Chan.age_dPrev (x : Chan) : x.age.dPrev = x.dPrev := by unfold Chan.age; split <;> rfl

theorem Chan.age_of_nil {x : Chan} (h : x.raised = []) : x.age = x := by simp [Chan.age, h]

theorem Chan.age_raised_cons {x : Chan} {r : Raised} {rest : List Raised} (h : x.raised = r :: rest) :
    x.age.raised = { r with room := r.room - 1 } :: rest := by simp [Chan.age, h]

/-- Only the room of the events is less: which events are raised stays. -/
@[simp] theorem Chan.age_events (x : Chan) : x.age.raised.map Raised.event = x.raised.map Raised.event := by
  unfold Chan.age; split <;> simp_all

@[simp] theorem State.chan_age (s : State) (c : Channel) : s.age.chan c = (s.chan c).age := by cases c <;> rfl
@[simp] theorem State.decoder_age (s : State) (c : Channel) : s.age.decoder c = s.decoder c := by simp [State.decoder]
@[simp] theorem State.claimed_age (s : State) (c : Channel) : s.age.claimed c = s.claimed c := by simp [State.claimed]
@[simp] theorem State.position_age (s : State) (c : Channel) : s.age.position c = s.position c := by simp [State.position]
@[simp] theorem State.reversed_age (s : State) (c : Channel) : s.age.reversed c = s.reversed c := by simp [State.reversed]
@[simp] theorem State.tPrev_age (s : State) (c : Channel) : s.age.tPrev c = s.tPrev c := by simp [State.tPrev]
@[simp] theorem State.dPrev_age (s : State) (c : Channel) : s.age.dPrev c = s.dPrev c := by simp [State.dPrev]
@[simp] theorem State.age_started (s : State) : s.age.started = s.started := rfl
@[simp] theorem State.age_fault (s : State) : s.age.fault = s.fault := rfl
@[simp] theorem State.age_out (s : State) : s.age.out = s.out := rfl
@[simp] theorem State.age_schedule (s : State) : s.age.schedule = s.schedule := rfl
@[simp] theorem State.age_inputs (s : State) : s.age.inputs = s.inputs := rfl

theorem State.raised_age_of_nil {s : State} {c : Channel} (h : s.raised c = []) : s.age.raised c = [] := by
  simp only [State.raised, State.chan_age, Chan.age_of_nil h]; exact h

theorem State.raised_age_cons {s : State} {c : Channel} {r : Raised} {rest : List Raised} (h : s.raised c = r :: rest) :
    s.age.raised c = { r with room := r.room - 1 } :: rest := by
  simp only [State.raised, State.chan_age, Chan.age_raised_cons h]

/-! Taking an operation from the inputs. -/

@[simp] theorem State.chan_take (s : State) (rest : List Input) (p : Schedule) (c : Channel) :
    (s.take rest p).chan c = (s.chan c).age := s.chan_age c
@[simp] theorem State.decoder_take (s : State) (rest : List Input) (p : Schedule) (c : Channel) :
    (s.take rest p).decoder c = s.decoder c := s.decoder_age c
@[simp] theorem State.claimed_take (s : State) (rest : List Input) (p : Schedule) (c : Channel) :
    (s.take rest p).claimed c = s.claimed c := s.claimed_age c
@[simp] theorem State.position_take (s : State) (rest : List Input) (p : Schedule) (c : Channel) :
    (s.take rest p).position c = s.position c := s.position_age c
@[simp] theorem State.reversed_take (s : State) (rest : List Input) (p : Schedule) (c : Channel) :
    (s.take rest p).reversed c = s.reversed c := s.reversed_age c
@[simp] theorem State.tPrev_take (s : State) (rest : List Input) (p : Schedule) (c : Channel) :
    (s.take rest p).tPrev c = s.tPrev c := s.tPrev_age c
@[simp] theorem State.dPrev_take (s : State) (rest : List Input) (p : Schedule) (c : Channel) :
    (s.take rest p).dPrev c = s.dPrev c := s.dPrev_age c
@[simp] theorem State.raised_take (s : State) (rest : List Input) (p : Schedule) (c : Channel) :
    (s.take rest p).raised c = s.age.raised c := rfl
@[simp] theorem State.take_started (s : State) (rest : List Input) (p : Schedule) : (s.take rest p).started = s.started := rfl
@[simp] theorem State.take_fault (s : State) (rest : List Input) (p : Schedule) : (s.take rest p).fault = s.fault := rfl
@[simp] theorem State.take_out (s : State) (rest : List Input) (p : Schedule) : (s.take rest p).out = s.out := rfl
@[simp] theorem State.take_schedule (s : State) (rest : List Input) (p : Schedule) : (s.take rest p).schedule = p := rfl
@[simp] theorem State.take_inputs (s : State) (rest : List Input) (p : Schedule) : (s.take rest p).inputs = rest := rfl

/-! Reset. -/

@[simp] theorem State.chan_restart (rest : List Input) (c : Channel) : (State.restart rest).chan c = Chan.reset := by
  cases c <;> rfl
@[simp] theorem State.restart_started (rest : List Input) : (State.restart rest).started = false := rfl
@[simp] theorem State.restart_fault (rest : List Input) : (State.restart rest).fault = none := rfl
@[simp] theorem State.restart_out (rest : List Input) : (State.restart rest).out = .none := rfl
@[simp] theorem State.restart_inputs (rest : List Input) : (State.restart rest).inputs = rest := rfl

/-! Two states with the same fields are the same state. -/

theorem State.ext_fields {s t : State} (hc : ∀ c, s.chan c = t.chan c) (hs : s.started = t.started) (hf : s.fault = t.fault)
    (ho : s.out = t.out) (hp : s.schedule = t.schedule) (hi : s.inputs = t.inputs) : s = t := by
  cases s; cases t
  simp only [State.mk.injEq]
  exact ⟨Bank.ext_get hc, hs, hf, ho, hp, hi⟩

/-- With no event raised a step coming before the raised events changes nothing. -/
theorem State.age_of_settled {s : State} (h : s.settled) : s.age = s :=
  State.ext_fields (fun c => by rw [State.chan_age, Chan.age_of_nil (h c)]) rfl rfl rfl rfl rfl

end Sys2Proof.Machine
end

