-- ==== Sys2Proof/Laws/Ops.lean ====
section
/-! SUPPORT. What each shared operation can do, said once: channel operands, claiming, one edge event, one sampling
instant, whose step comes next, one step. -/

namespace Sys2Proof

/-! Channel operands (R33, R53). -/

@[simp] theorem Channel.ofNat?_index (c : Channel) : Channel.ofNat? c.index = some c := by
  cases c <;> rfl

theorem Channel.index_lt (c : Channel) : c.index < 4 := by
  cases c <;> decide

theorem Channel.ofNat?_of_ge {ch : Nat} (h : 4 ≤ ch) : Channel.ofNat? ch = none := by
  obtain ⟨k, rfl⟩ := Nat.exists_eq_add_of_le' h
  rfl

theorem Channel.ofNat?_eq_some {ch : Nat} {c : Channel} (h : Channel.ofNat? ch = some c) : ch = c.index := by
  match ch, h with
  | 0, h => cases h; rfl
  | 1, h => cases h; rfl
  | 2, h => cases h; rfl
  | 3, h => cases h; rfl
  | n + 4, h => cases h

/-- A channel number names a channel or is above 3. -/
theorem Channel.number_cases (ch : Nat) : (∃ c : Channel, ch = c.index) ∨ 4 ≤ ch := by
  match ch with
  | 0 => exact .inl ⟨.A, rfl⟩
  | 1 => exact .inl ⟨.B, rfl⟩
  | 2 => exact .inl ⟨.C, rfl⟩
  | 3 => exact .inl ⟨.D, rfl⟩
  | n + 4 => exact .inr (Nat.le_add_left 4 n)

theorem Channel.index_injective {c c' : Channel} (h : c.index = c'.index) : c = c' := by
  cases c <;> cases c' <;> first | rfl | exact absurd h (by decide)

end Sys2Proof

namespace Sys2Proof.Machine

@[simp] theorem onChannel_index (c : Channel) (op : Op) (s : State) (k : Channel → State) : onChannel c.index op s k = k c := by
  simp [onChannel]

theorem onChannel_of_ge {ch : Nat} (h : 4 ≤ ch) (op : Op) (s : State) (k : Channel → State) :
    onChannel ch op s k = s.raise (.badChannel ch op) := by
  simp [onChannel, Channel.ofNat?_of_ge h]

theorem onDecoder_of_ge {ch : Nat} (h : 4 ≤ ch) (op : Op) (s : State) (k : Channel → Decoder → State) :
    onDecoder ch op s k = s.raise (.badChannel ch op) :=
  onChannel_of_ge h _ _ _

theorem onDecoder_claimed {s : State} {c : Channel} {d : Decoder} (h : s.decoder c = some d) (op : Op)
    (k : Channel → Decoder → State) : onDecoder c.index op s k = k c d := by
  simp [onDecoder, h]

theorem onDecoder_unclaimed {s : State} {c : Channel} (h : s.decoder c = none) (op : Op) (k : Channel → Decoder → State) :
    onDecoder c.index op s k = s.raise (.unclaimed c op) := by
  simp [onDecoder, h]

/-! Claiming (R15, R16, R17, R30a). -/

theorem State.claimed_iff (s : State) (c : Channel) : s.claimed c = true ↔ ∃ d, s.decoder c = some d :=
  Option.isSome_iff_exists

theorem State.not_claimed_iff (s : State) (c : Channel) : s.claimed c = false ↔ s.decoder c = none := by
  simp [State.claimed]

theorem State.position_isSome (s : State) (c : Channel) : (s.position c).isSome = s.claimed c := by
  simp [State.position, State.claimed]

theorem State.reversed_isSome (s : State) (c : Channel) : (s.reversed c).isSome = s.claimed c := by
  simp [State.reversed, State.claimed]

theorem State.decoder_eq_some_iff (s : State) (c : Channel) (d : Decoder) :
    s.decoder c = some d ↔ s.position c = some d.position ∧ s.reversed c = some d.reversed := by
  cases d
  cases h : s.decoder c <;> simp [State.position, State.reversed, h]
  rename_i d'
  cases d'
  simp

/-! The ±1 (R77, R79). -/

theorem cw_direction (T D r : Bool) : cw .direction T D r = !cw .trigger T D r := by
  cases T <;> cases D <;> cases r <;> rfl

theorem cw_reversed (l : Line) (T D r : Bool) : cw l T D (!r) = !cw l T D r := by
  cases l <;> cases T <;> cases D <;> cases r <;> rfl

theorem tick_eq_add (b : Bool) (p : Word) : tick b p = if b then p + 1 else p - 1 := by
  cases b <;> simp [tick, wrap32, signed, delta, BitVec.ofInt_add, BitVec.sub_eq_add_neg]

@[simp] theorem tick_tick_not (b : Bool) (p : Word) : tick (!b) (tick b p) = p := by
  cases b <;> simp [tick_eq_add]

/-! One edge event (R73 to R78). -/

theorem edgeEvent_unclaimed {s : State} {c : Channel} (h : s.decoder c = none) (e : EdgeEvent) :
    s.edgeEvent c e = s.raise (.unclaimed c e.line.op) := by
  simp [State.edgeEvent, h]

theorem edgeEvent_claimed {s : State} {c : Channel} {d : Decoder} (h : s.decoder c = some d) (e : EdgeEvent) :
    s.edgeEvent c e =
      { (s.setDecoder c { d with position := tick (cw e.line e.T e.D d.reversed) d.position }) with
        started := true, out := .none } := by
  simp [State.edgeEvent, h]

/-- An edge event leaves other channels, and what is not the counter, as they are. -/
theorem edgeEvent_chan_of_ne (s : State) {c c' : Channel} (e : EdgeEvent) (h : c' ≠ c) :
    (s.edgeEvent c e).chan c' = s.chan c' := by
  unfold State.edgeEvent
  split
  · rfl
  · exact State.chan_setDecoder_of_ne _ _ h

@[simp] theorem edgeEvent_schedule (s : State) (c : Channel) (e : EdgeEvent) : (s.edgeEvent c e).schedule = s.schedule := by
  unfold State.edgeEvent; split <;> rfl

@[simp] theorem edgeEvent_inputs (s : State) (c : Channel) (e : EdgeEvent) : (s.edgeEvent c e).inputs = s.inputs := by
  unfold State.edgeEvent; split <;> rfl

/-- What an edge event makes of its own channel: only the counter moves. -/
theorem edgeEvent_chan (s : State) (c : Channel) (e : EdgeEvent) :
    (s.edgeEvent c e).chan c =
      { s.chan c with
        decoder := (s.chan c).decoder.map fun d => { d with position := tick (cw e.line e.T e.D d.reversed) d.position } } := by
  cases h : s.decoder c with
  | none =>
    rw [edgeEvent_unclaimed h, State.chan_raise]
    simp only [State.decoder] at h
    cases hx : s.chan c; simp_all
  | some d =>
    rw [edgeEvent_claimed h]
    show (s.setDecoder c _).chan c = _
    simp only [State.decoder] at h
    rw [State.chan_setDecoder, h]
    rfl

@[simp] theorem edgeEvent_claimed_eq (s : State) (c c' : Channel) (e : EdgeEvent) :
    (s.edgeEvent c e).claimed c' = s.claimed c' := by
  by_cases h : c' = c
  · subst h; simp [State.claimed, State.decoder, edgeEvent_chan]
  · simp [State.claimed, State.decoder, edgeEvent_chan_of_ne s e h]

@[simp] theorem edgeEvent_raised (s : State) (c c' : Channel) (e : EdgeEvent) : (s.edgeEvent c e).raised c' = s.raised c' := by
  by_cases h : c' = c
  · subst h; simp [State.raised, edgeEvent_chan]
  · simp [State.raised, edgeEvent_chan_of_ne s e h]

/-- What an edge event makes of every channel's levels: nothing. -/
@[simp] theorem edgeEvent_tPrev (s : State) (c c' : Channel) (e : EdgeEvent) : (s.edgeEvent c e).tPrev c' = s.tPrev c' := by
  by_cases h : c' = c
  · subst h; simp [State.tPrev, edgeEvent_chan]
  · simp [State.tPrev, edgeEvent_chan_of_ne s e h]

@[simp] theorem edgeEvent_dPrev (s : State) (c c' : Channel) (e : EdgeEvent) : (s.edgeEvent c e).dPrev c' = s.dPrev c' := by
  by_cases h : c' = c
  · subst h; simp [State.dPrev, edgeEvent_chan]
  · simp [State.dPrev, edgeEvent_chan_of_ne s e h]

/-! One sampling instant (R89 to R93, R105). -/

/-- A line has changed exactly when the opposite level was latched (R89, R90). -/
theorem changed_eq_decide (prev : Option Bool) (now : Bool) : changed prev now = decide (prev = some (!now)) := by
  rcases prev with _ | p
  · rfl
  · cases p <;> cases now <;> rfl

theorem raisedEvents_levels {pl : Schedule} {te de t d : Bool} {r : Raised} (h : r ∈ raisedEvents pl te de t d) :
    r.event.T = t ∧ r.event.D = d := by
  cases te <;> cases de <;> simp [raisedEvents] at h <;> (try rcases h with rfl | rfl) <;> exact ⟨rfl, rfl⟩

theorem raisedEvents_lines_nodup (pl : Schedule) (te de t d : Bool) : ((raisedEvents pl te de t d).map fun r => r.event.line).Nodup := by
  rcases pl with ⟨_ | _, n⟩ <;> cases te <;> cases de <;> simp [raisedEvents, Line.other]

/-- What a sampling instant makes of its channel. -/
theorem sample_chan (s : State) (c : Channel) (t d : Bool) :
    (s.sample c t d).chan c =
      { s.chan c with
        tPrev := some t, dPrev := some d,
        raised := s.raised c ++ raisedEvents s.schedule (changed (s.tPrev c) t && s.claimed c) (changed (s.dPrev c) d && s.claimed c)
          t d } := by
  simp [State.sample, State.sourceEnabled, State.raised, State.tPrev, State.dPrev]

theorem sample_chan_of_ne (s : State) {c c' : Channel} (t d : Bool) (h : c' ≠ c) : (s.sample c t d).chan c' = s.chan c' :=
  State.chan_setChan_of_ne _ _ h

@[simp] theorem sample_decoder (s : State) (c c' : Channel) (t d : Bool) : (s.sample c t d).decoder c' = s.decoder c' := by
  by_cases h : c' = c
  · subst h; simp [State.decoder, sample_chan]
  · simp [State.decoder, sample_chan_of_ne _ _ _ h]

@[simp] theorem sample_started (s : State) (c : Channel) (t d : Bool) : (s.sample c t d).started = s.started := rfl
@[simp] theorem sample_fault (s : State) (c : Channel) (t d : Bool) : (s.sample c t d).fault = s.fault := rfl
@[simp] theorem sample_out (s : State) (c : Channel) (t d : Bool) : (s.sample c t d).out = .none := rfl
@[simp] theorem sample_schedule (s : State) (c : Channel) (t d : Bool) : (s.sample c t d).schedule = s.schedule := rfl
@[simp] theorem sample_inputs (s : State) (c : Channel) (t d : Bool) : (s.sample c t d).inputs = s.inputs := rfl

/-! A raised event's own step (R89, R135). -/

theorem performRaised_nil {s : State} {c : Channel} (h : s.raised c = []) : s.performRaised c = s := by
  simp [State.performRaised, h]

theorem performRaised_cons {s : State} {c : Channel} {r : Raised} {rest : List Raised} (h : s.raised c = r :: rest) :
    s.performRaised c = (s.setChan c { s.chan c with raised := rest }).edgeEvent c r.event := by
  simp [State.performRaised, h]

/-- The step of a raised event: every channel's events have one step fewer before them, this one is no longer raised, and its handler
runs. -/
theorem eventStep_cons {s : State} {c : Channel} {r : Raised} {rest : List Raised} (h : s.raised c = r :: rest) :
    s.eventStep c = (s.age.setChan c { s.age.chan c with raised := rest }).edgeEvent c r.event := by
  unfold State.eventStep; rw [performRaised_cons (State.raised_age_cons h)]

/-- Performing the oldest raised event of a channel takes it from that channel's raised events and leaves the others'. -/
theorem performRaised_raised (s : State) (c c' : Channel) :
    (s.performRaised c).raised c' = if c' = c then (s.raised c).tail else s.raised c' := by
  unfold State.performRaised
  split
  · rename_i h; split_ifs with hc <;> simp [h, hc]
  · rename_i r rest h
    rw [edgeEvent_raised, h]
    split_ifs with hc
    · subst hc; simp [State.raised]
    · simp only [State.raised, State.chan_setChan_of_ne _ _ hc]

/-- Finishing a channel leaves it no raised event, and the other channels theirs. -/
theorem finish_raised (s : State) (c c' : Channel) : (s.finish c).raised c' = if c' = c then [] else s.raised c' := by
  have step : ∀ n, (Nat.repeat (State.performRaised c) n s).raised c' = if c' = c then (s.raised c).drop n else s.raised c' := by
    intro n
    induction n with
    | zero => split_ifs with hc <;> simp [Nat.repeat, hc]
    | succ n ih =>
      rw [Nat.repeat, performRaised_raised]
      split_ifs with hc
      · subst hc; rw [if_pos rfl] at ih; rw [ih, List.tail_drop]
      · rw [ih, if_neg hc]
  rw [State.finish, step, List.drop_length]

/-- After `settle` no event is still to come. -/
theorem settle_settled (s : State) : s.settle.settled := fun c => by
  cases c <;> simp [State.settle, finish_raised]

/-! Whose step comes next (R7, R93, R105). -/

theorem firstChannel_eq_none {p : Channel → Bool} : firstChannel p = none ↔ ∀ c, p c = false := by
  constructor
  · intro h c; have := List.find?_eq_none.1 h c (by cases c <;> simp); simpa using this
  · intro h; exact List.find?_eq_none.2 fun c _ => by simp [h c]

/-- A channel is found when it has the property and no channel before it has. -/
theorem firstChannel_eq_some {p : Channel → Bool} {c : Channel} :
    firstChannel p = some c ↔ p c = true ∧ ∀ c' : Channel, c'.index < c.index → p c' = false := by
  have all : ∀ q : Channel → Prop, (∀ c, q c) ↔ q .A ∧ q .B ∧ q .C ∧ q .D :=
    fun q => ⟨fun h => ⟨h _, h _, h _, h _⟩, fun ⟨a, b, c, d⟩ x => by cases x <;> assumption⟩
  rw [all]
  unfold firstChannel
  cases ha : p .A <;> cases hb : p .B <;> cases hc : p .C <;> cases hd : p .D <;> cases c <;>
    simp [List.find?, ha, hb, hc, hd, Channel.index]

theorem hasRaised_eq_false {s : State} {c : Channel} : s.hasRaised c = false ↔ s.raised c = [] := by
  simp [State.hasRaised]

theorem hasRaised_eq_true {s : State} {c : Channel} : s.hasRaised c = true ↔ ∃ r rest, s.raised c = r :: rest := by
  cases h : s.raised c <;> simp [State.hasRaised, h]

theorem isDue_eq_true {s : State} {c : Channel} : s.isDue c = true ↔ ∃ r rest, s.raised c = r :: rest ∧ r.room = 0 := by
  unfold State.isDue
  cases h : s.raised c <;> simp

theorem isDue_of_nil {s : State} {c : Channel} (h : s.raised c = []) : s.isDue c = false := by
  simp [State.isDue, h]

/-- Everything a turn can be: the step of a raised event of the channel found. -/
theorem turn_hasRaised {s : State} {x : Except Refusal Instr} {c : Channel} (h : s.turn x = some c) : s.hasRaised c = true := by
  unfold State.turn at h
  split at h
  · rename_i c' hd
    injection h with h; subst h
    obtain ⟨r, rest, hr, -⟩ := isDue_eq_true.1 (firstChannel_eq_some.1 hd).1
    exact hasRaised_eq_true.2 ⟨r, rest, hr⟩
  · split at h
    · exact (firstChannel_eq_some.1 h).1
    · split_ifs at h
      exact (Option.filter_eq_some_iff.1 h).2

/-- Where no event has its turn none is due; a sampling instant is taken only of a channel without raised events; and a refusal only when
no event is raised. -/
theorem turn_eq_none {s : State} {x : Except Refusal Instr} (h : s.turn x = none) :
    (∀ c, s.isDue c = false) ∧ (∀ i c, x = .ok i → i.op = .pins → i.ch = c.index → s.raised c = []) ∧
      (∀ e, x = .error e → s.settled) := by
  unfold State.turn at h
  split at h
  · cases h
  · rename_i hd
    refine ⟨firstChannel_eq_none.1 hd, ?_, ?_⟩
    · rintro i c rfl hi hc
      simp only [hi, hc, beq_self_eq_true, if_true, Channel.ofNat?_index] at h
      by_contra hr
      simp [Option.filter, State.hasRaised, hr] at h
    · rintro e rfl c
      exact hasRaised_eq_false.1 (firstChannel_eq_none.1 h c)

/-- With no event raised none has a turn. -/
theorem turn_of_settled {s : State} (h : s.settled) (x : Except Refusal Instr) : s.turn x = none := by
  have h1 : firstChannel s.isDue = none := firstChannel_eq_none.2 fun c => isDue_of_nil (h c)
  have h2 : ∀ c, s.hasRaised c = false := fun c => hasRaised_eq_false.2 (h c)
  unfold State.turn
  rw [h1]
  cases x with
  | error e => exact firstChannel_eq_none.2 h2
  | ok i => rw [funext h2 (g := fun _ => false)]; cases Channel.ofNat? i.ch <;> simp

/-- An event that is due, before any other due, has its turn. -/
theorem turn_of_due {s : State} {c : Channel} (h : s.isDue c = true) (h' : ∀ c' : Channel, c'.index < c.index → s.isDue c' = false)
    (x : Except Refusal Instr) : s.turn x = some c := by
  unfold State.turn; rw [firstChannel_eq_some.2 ⟨h, h'⟩]

/-- Everything a step can do when it answers a next state: reset; the step of a raised event; or an operation, taken when no event has its
turn before it. -/
theorem step_cases {s t : State} (h : step s = .next t) :
    (∃ rest, s.inputs = .rst :: rest ∧ t = State.restart rest) ∨
    (noReset s.inputs ∧ ∃ c, s.hasRaised c = true ∧ t = s.eventStep c) ∨
    (∃ p w placement rest i, s.inputs = .op p w placement :: rest ∧ s.turn (.ok i) = none ∧ boundary p w = .ok i ∧ decode w = .ok i ∧
      exec i (s.take rest placement) = .next t) := by
  unfold step at h
  split at h
  · rename_i rest hi
    injection h with h
    exact .inl ⟨rest, hi, h.symm⟩
  · rename_i hi
    split at h
    · rename_i c hc
      injection h with h
      exact .inr (.inl ⟨by simp [noReset, hi], c, turn_hasRaised hc, h.symm⟩)
    · cases h
  · rename_i p w placement rest hi
    split at h
    · rename_i c hc
      injection h with h
      exact .inr (.inl ⟨by simp [noReset, hi], c, turn_hasRaised hc, h.symm⟩)
    · rename_i ht
      split at h
      · cases h
      · rename_i i hb
        refine .inr (.inr ⟨p, w, placement, rest, i, hi, hb ▸ ht, hb, ?_, h⟩)
        unfold boundary at hb
        split at hb
        · cases hb
        · rename_i i' hd
          split_ifs at hb
          injection hb with hb; subst hb; exact hd

end Sys2Proof.Machine
end

