-- ==== Sys2Proof/Laws/Handlers.lean ====
section
/-! SUPPORT. The operations of edge events and sampling instants in terms of the shared operations, and everything an edge event does to a
claimed channel. -/

namespace Sys2Proof.Machine

/-- The operation that delivers an edge event runs that event. -/
theorem exec_edgeEvent_instr (c : Channel) (e : EdgeEvent) (s : State) : exec (e.instr c) s = .next (s.edgeEvent c e) := by
  obtain ⟨l, T, D⟩ := e
  cases l <;> simp [EdgeEvent.instr, exec, execTrig, execDir]

/-- `PINS` on an existing channel is one sampling instant. -/
theorem exec_pins_index (c : Channel) (t d : Bool) (s : State) : exec (.pins c.index t d) s = .next (s.sample c t d) := by
  simp [exec, execPins]

/-- Everything an edge event does to a claimed channel: the counter ticks, the flag stays. -/
theorem edgeEvent_decoder {s : State} {c : Channel} {p : Word} {r : Bool} (h : s.decoder c = some ⟨p, r⟩) (e : EdgeEvent) :
    (s.edgeEvent c e).decoder c = some ⟨tick (cw e.line e.T e.D r) p, r⟩ := by
  have h' : (s.chan c).decoder = some ⟨p, r⟩ := h
  simp [State.decoder, edgeEvent_chan, h']

/-- Everything an edge event on a claimed channel does to the block. -/
theorem edgeEvent_block {s : State} {c : Channel} (h : s.claimed c = true) (e : EdgeEvent) :
    (s.edgeEvent c e).started = true ∧ (s.edgeEvent c e).out = .none ∧ (s.edgeEvent c e).fault = s.fault := by
  obtain ⟨d, hd⟩ := (State.claimed_iff s c).1 h
  rw [edgeEvent_claimed hd]
  exact ⟨rfl, rfl, rfl⟩

/-- On an unclaimed channel, or with neither line changed, a sampling instant raises nothing (R90, R91). -/
theorem sample_raises_nothing {s : State} {c : Channel} {t d : Bool}
    (h : s.claimed c = false ∨ (s.tPrev c ≠ some (!t) ∧ s.dPrev c ≠ some (!d))) : (s.sample c t d).raised c = s.raised c := by
  rw [State.raised, sample_chan]
  rcases h with h | ⟨h, h'⟩
  · simp [h, raisedEvents]
  · simp [changed_eq_decide, h, h', raisedEvents]

/-- On a claimed channel the changed lines raise their events (R89, R93). -/
theorem sample_raised {s : State} {c : Channel} (h : s.claimed c = true) (t d : Bool) :
    (s.sample c t d).raised c =
      s.raised c ++ raisedEvents s.schedule (decide (s.tPrev c = some (!t))) (decide (s.dPrev c = some (!d))) t d := by
  rw [State.raised, sample_chan]
  simp [changed_eq_decide, h]

end Sys2Proof.Machine
end

