-- ==== Sys2Proof/Laws/PerInstr.lean ====
section
/-! SUPPORT. Statements made of every instruction, one lemma per constructor. -/

namespace Sys2Proof.Laws

/-- The fields an instruction is encoded in: its own operation code, its channel number, and no must-be-zero bit `z` (R46, R48). -/
def EncodedFields.Statement (i : Instr) : Prop :=
  (Fields.ofWord (encode i)).op = i.op.code ∧ (i.wf = true → (Fields.ofWord (encode i)).ch.toNat = i.ch) ∧
    (Fields.ofWord (encode i)).z = false

namespace EncodedFields

theorem ch_toNat {ch : Nat} (h : decide (ch < 4) = true) : (BitVec.ofNat 2 ch).toNat = ch :=
  Nat.mod_eq_of_lt (of_decide_eq_true h)

theorem construct (ch : Nat) : Statement (.construct ch) := by
  simp only [Statement, encode, Fields.ofWord_toWord]; exact ⟨rfl, ch_toNat, rfl⟩

theorem read (ch : Nat) : Statement (.read ch) := by
  simp only [Statement, encode, Fields.ofWord_toWord]; exact ⟨rfl, ch_toNat, rfl⟩

theorem write (ch : Nat) (n : Word) : Statement (.write ch n) := by
  simp only [Statement, encode, Fields.ofWord_toWord]; exact ⟨rfl, ch_toNat, rfl⟩

theorem isrev (ch : Nat) : Statement (.isrev ch) := by
  simp only [Statement, encode, Fields.ofWord_toWord]; exact ⟨rfl, ch_toNat, rfl⟩

theorem setrev (ch : Nat) (b : Bool) : Statement (.setrev ch b) := by
  simp only [Statement, encode, Fields.ofWord_toWord]; exact ⟨rfl, ch_toNat, rfl⟩

theorem trig (ch : Nat) (T D : Bool) : Statement (.trig ch T D) := by
  simp only [Statement, encode, Fields.ofWord_toWord]; exact ⟨rfl, ch_toNat, rfl⟩

theorem dir (ch : Nat) (T D : Bool) : Statement (.dir ch T D) := by
  simp only [Statement, encode, Fields.ofWord_toWord]; exact ⟨rfl, ch_toNat, rfl⟩

theorem pins (ch : Nat) (t d : Bool) : Statement (.pins ch t d) := by
  simp only [Statement, encode, Fields.ofWord_toWord]; exact ⟨rfl, ch_toNat, rfl⟩

end EncodedFields

end Sys2Proof.Laws
end

