-- ==== Sys2Proof/Tests/Slice0.lean ====
section
/-! SUPPORT. The model's own tests: words and vectors of 30_encoding.md and 95_test_vectors.md, and a witness for the hypotheses of every
statement that has some. -/

namespace Sys2Proof.Tests

open Sys2Proof Sys2Proof.Machine

/-! ## Helpers -/

/-- The state an outcome reaches. -/
def reached : Host.Outcome State Fault Refusal → Option State
  | .next s => some s
  | .fault _ => none
  | .refused _ => none

/-- Why an outcome is refused. -/
def refusal : Host.Outcome State Fault Refusal → Option Refusal
  | .next _ => none
  | .fault _ => none
  | .refused r => some r

/-- A channel owned by a decoder, no level seen. -/
def owned (p : Word) (r : Bool) : Chan := { Chan.reset with decoder := some ⟨p, r⟩ }

/-- A channel whose last levels are these. -/
def sampled (t d : Bool) (x : Chan) : Chan := { x with tPrev := some t, dPrev := some d }

/-- The reset state but for channel A. -/
def onA (x : Chan) : State := State.reset.setChan .A x

/-- The reset state but for channel A, an event having been delivered. -/
def runningA (x : Chan) : State := { onA x with started := true }

/-- `position[A]` after one operation. -/
def posA (i : Instr) (s : State) : Option Word := (reached (exec i s)).bind fun t => t.position .A

/-- What one operation puts on the ports. -/
def outOf (i : Instr) (s : State) : Option Output := (reached (exec i s)).map State.out

/-- A channel with these events raised. -/
def withRaised (es : List Raised) (x : Chan) : Chan := { x with raised := es }

/-- After a sampling instant of channel A from levels (0,0) to (1,1): its direction event performed, its trigger event still to come, with
room for this many steps of others. -/
def halfwayRoom (room : Nat) : State := runningA (withRaised [⟨⟨.trigger, true, true⟩, room⟩] (sampled true true (owned 1 false)))

/-- Halfway with room for one step, channel B owned too. -/
def halfway : State := (halfwayRoom 1).setChan .B (owned 5 false)

/-- Channel A owned, counter at the given end, last levels (0,0), no event raised, nothing started. -/
def calmA (p : Word) (r : Bool) : State := onA (sampled false false (owned p r))

/-- One descriptor presented on a port. -/
def presenting (p : Port) (w : Descriptor) (s : State) : State := { s with inputs := [.op p w ⟨.direction, 1⟩] }

/-! ## Syntax and decoding (R48, R52, R53, R59, V1 to V7) -/

/-- Ill-formed terms, one per operation: a channel number that names no channel (R53). -/
theorem test_wellFormed_refuses_channel_4 :
    ∀ i ∈ [Instr.construct 4, .read 4, .write 4 0, .isrev 4, .setrev 4 true, .trig 4 true false, .dir 4 true true, .pins 4 false true],
      i.wf = false := by decide

theorem test_wellFormed_accepts_channel_3 : (Instr.write 3 0x80000000).wf = true := by decide

/-- One word of each operation, field by field: op, ch, a, b, z, imm (R46, R48). -/
theorem test_decode_construct : decode (0b000#3 ++ 0b11#2 ++ 0#1 ++ 0#1 ++ 0#1 ++ 0#32) = .ok (.construct 3) := by decide
theorem test_decode_read : decode (0b001#3 ++ 0b01#2 ++ 0#1 ++ 0#1 ++ 0#1 ++ 0#32) = .ok (.read 1) := by decide
theorem test_decode_write : decode (0b010#3 ++ 0b01#2 ++ 0#1 ++ 0#1 ++ 0#1 ++ 0xFFFFFFFB#32) = .ok (.write 1 0xFFFFFFFB) := by decide
theorem test_decode_isrev : decode (0b011#3 ++ 0b10#2 ++ 0#1 ++ 0#1 ++ 0#1 ++ 0#32) = .ok (.isrev 2) := by decide
theorem test_decode_setrev : decode (0b100#3 ++ 0b11#2 ++ 1#1 ++ 0#1 ++ 0#1 ++ 0#32) = .ok (.setrev 3 true) := by decide
theorem test_decode_trig : decode (0b101#3 ++ 0b00#2 ++ 1#1 ++ 0#1 ++ 0#1 ++ 0#32) = .ok (.trig 0 true false) := by decide
theorem test_decode_dir : decode (0b110#3 ++ 0b01#2 ++ 1#1 ++ 0#1 ++ 0#1 ++ 0#32) = .ok (.dir 1 true false) := by decide
theorem test_decode_pins : decode (0b111#3 ++ 0b10#2 ++ 0#1 ++ 1#1 ++ 0#1 ++ 0#32) = .ok (.pins 2 false true) := by decide

/-- V1 to V4. -/
theorem test_decode_vectors :
    decode 0x0800000000 = .ok (.construct 1) ∧ decode 0xCC00000000 = .ok (.dir 1 true false) ∧
      decode 0xE000000000 = .ok (.pins 0 false false) ∧ decode 0x4000000064 = .ok (.write 0 100) := by decide

/-- V5 to V7, and `a` set in CONSTRUCT, `b` set in WRITE (R52). -/
theorem test_decode_invalid :
    decode 0x0100000000 = .error .reservedSet ∧ decode 0x6400000000 = .error (.aSet .isrev) ∧
      decode 0xA400000001 = .error (.immSet .trig) ∧ decode 0x0400000000 = .error (.aSet .construct) ∧
      decode 0x4200000000 = .error (.bSet .write) := by decide

/-- `withFetchWord` on a state with a raised event: it is performed, and the very next step is the operation, here CONSTRUCT D. -/
theorem test_withFetchWord_settles_raised_events :
    (reached (step (halfway.withFetchWord 40 0x1800000000))).map (fun t => (t.out, t.position .A, t.raised .A)) =
      some (.fault (.lateConstruct .D), some 0, []) := by decide

/-- The host's entry point, one word per row; a word too wide for a descriptor is none. -/
theorem test_decodeTableWord :
    [0x0000000000, 0x2000000000, 0x4000000000, 0x6000000000, 0x8000000000, 0xA000000000, 0xC000000000, 0xE000000000].map
        (decodeTableWord 40) =
      [some (Instr.construct 0), some (.read 0), some (.write 0 0), some (.isrev 0), some (.setrev 0 false),
        some (.trig 0 false false), some (.dir 0 false false), some (.pins 0 false false)] ∧
      decodeTableWord 48 0x10000000000 = none := by decide

/-- Each row's word is the first operation after reset: what its step puts on the ports (R61, R65, R78, R90). -/
theorem test_withFetchWord_runs_each_row :
    [0x0000000000, 0x2000000000, 0x4000000000, 0x6000000000, 0x8000000000, 0xA000000000, 0xC000000000, 0xE000000000].map
        (fun w => (reached (step (State.reset.withFetchWord 40 w))).map State.out) =
      [some .none, some (.fault (.unclaimed .A .read)), some (.fault (.unclaimed .A .write)), some (.fault (.unclaimed .A .isrev)),
        some (.fault (.unclaimed .A .setrev)), some (.fault (.unclaimed .A .trig)), some (.fault (.unclaimed .A .dir)),
        some .none] := by decide

/-- R56: the printer writes the section's examples. -/
theorem test_written :
    [Instr.construct 0, .read 1, .write 2 0xFFFFFFFB, .isrev 0, .setrev 3 true, .trig 0 true false, .dir 0 true true,
        .pins 0 true false].map written =
      [some "CONSTRUCT A", some "READ B", some "WRITE C, -5", some "ISREV A", some "SETREV D, 1", some "TRIG A, 1, 0",
        some "DIR A, 1, 1", some "PINS A, 1, 0"] ∧
      outputText (.result 2) = " -> 2" ∧ outputText (.fault (.unclaimed .B .trig)) = " ! FAULT_UNCLAIMED" := by decide

/-- R56: a hexadecimal immediate is the 32-bit pattern; a decimal one has an optional sign; what has no form is not read. -/
theorem test_readWritten :
    readWritten "WRITE C, -5" = some (.write 2 0xFFFFFFFB) ∧ readWritten "WRITE C, 0xFFFFFFFB" = some (.write 2 0xFFFFFFFB) ∧
      readWritten "WRITE C, +5" = some (.write 2 5) ∧ readWritten "WRITE C, 2147483648" = none ∧ readWritten "READ E" = none := by
  decide

/-! ## One step of each operation, from the vectors of 95_test_vectors.md -/

/-- V29: `CONSTRUCT A` from reset. -/
theorem test_construct : reached (exec (.construct 0) State.reset) = some (onA (owned 0 false)) := by decide

/-- V36, P4: a second construction and a late one, each with its record (R61, R96). -/
theorem test_construct_faults :
    reached (exec (.construct 0) (runningA (owned 9 true))) = some (faulted (.reclaim .A) (runningA (owned 9 true))) ∧
      reached (exec (.construct 1) (runningA (owned 1 false))) = some (faulted (.lateConstruct .B) (runningA (owned 1 false))) ∧
      (Fault.lateConstruct .B).code = 4 := by decide

/-- V11: the most negative value is read as it is. -/
theorem test_read : outOf (.read 0) (onA (owned 0x80000000 false)) = some (.result 0x80000000) := by decide

/-- V31: READ of an unclaimed channel. -/
theorem test_read_unclaimed :
    (reached (exec (.read 0) State.reset)).map State.fault = some (some (.unclaimed .A .read)) := by decide

/-- V9: `WRITE A, -1`, the flag untouched. -/
theorem test_write :
    reached (exec (.write 0 0xFFFFFFFF) (onA (owned 7 true))) = some (onA (owned 0xFFFFFFFF true)) := by decide

/-- V33: the first fault is kept. -/
theorem test_setrev_keeps_first_fault :
    (reached (exec (.setrev 2 true) { State.reset with fault := some (.unclaimed .C .isrev) })).map State.fault =
      some (some (.unclaimed .C .isrev)) := by decide

/-- V14, V15: the flag as a word. -/
theorem test_isrev :
    outOf (.isrev 0) (onA (owned 0 false)) = some (.result 0) ∧ outOf (.isrev 0) (onA (owned 0 true)) = some (.result 1) := by decide

/-- V15: the flag changes, the counter does not. -/
theorem test_setrev : reached (exec (.setrev 0 true) (onA (owned 5 false))) = some (onA (owned 5 true)) := by decide

/-- V19a to V19h: the truth table of R74, from 10. -/
theorem test_trig_table :
    [(false, false, false), (false, true, false), (true, false, false), (true, true, false),
      (false, false, true), (false, true, true), (true, false, true), (true, true, true)].map
        (fun x => posA (.trig 0 x.1 x.2.1) (onA (owned 10 x.2.2))) =
      [some 9, some 11, some 11, some 9, some 11, some 9, some 9, some 11] := by decide

/-- V21, V22: both ends wrap. -/
theorem test_trig_wraps :
    posA (.trig 0 true false) (onA (owned 0x7FFFFFFF false)) = some 0x80000000 ∧
      posA (.trig 0 false false) (onA (owned 0x80000000 false)) = some 0x7FFFFFFF := by decide

/-- V20a to V20h: the truth table of R76, from 10. -/
theorem test_dir_table :
    [(false, false, false), (false, true, false), (true, false, false), (true, true, false),
      (false, false, true), (false, true, true), (true, false, true), (true, true, true)].map
        (fun x => posA (.dir 0 x.1 x.2.1) (onA (owned 10 x.2.2))) =
      [some 11, some 9, some 9, some 11, some 9, some 11, some 11, some 9] := by decide

/-- V34: an event of an unclaimed channel; nothing starts, channel A stays. -/
theorem test_dir_unclaimed :
    reached (exec (.dir 1 true false) (onA (owned 0 false))) = some (faulted (.unclaimed .B .dir) (onA (owned 0 false))) := by decide

/-- V41, V42, V43, V44: first sample, no change, one line, the other line; an event that is raised is the next step (R89, R135). -/
theorem test_pins :
    [(onA (owned 0 false), true, false), (calmA 0 false, false, false)].map (fun x => reached (exec (.pins 0 x.2.1 x.2.2) x.1)) =
        [some (onA (sampled true false (owned 0 false))), some (calmA 0 false)] ∧
      [(true, false), (false, true)].map (fun x => (reached (exec (.pins 0 x.1 x.2) (calmA 0 false))).bind fun t => reached (step t)) =
        [some (runningA (sampled true false (owned 1 false))), some (runningA (sampled false true (owned (-1) false)))] := by decide

/-- V45: both lines, the direction event first with room for one step before the other: a READ between them sees 1. -/
theorem test_pins_both_lines :
    ((reached (exec (.pins 0 true true) { calmA 0 false with schedule := ⟨.direction, 1⟩ })).bind fun t => reached (step t)) =
        some { halfwayRoom 1 with schedule := ⟨.direction, 1⟩ } ∧
      outOf (.read 0) (halfwayRoom 1) = some (.result 1) := by decide

/-! ## Witnesses: states and operands that meet the hypotheses of each statement -/

theorem halfway_inv : halfway.Inv where
  channels c := by
    cases c <;> exact ⟨by decide, by decide, by decide, by decide⟩
  started_claimed _ := ⟨.A, rfl⟩

theorem calmA_settled (p : Word) (r : Bool) (l : List Input) : ({ calmA p r with inputs := l } : State).settled := fun c => by
  cases c <;> rfl

/-- No reset comes next where nothing is presented, or an operation. -/
theorem noReset_nil : noReset [] := fun _ h => by cases h

theorem noReset_presents (i : Instr) (pl : Schedule) (l : List Input) : noReset (presents i pl :: l) := fun _ h => by cases h

/-- DecodeOfEncodeIsTheInstruction: the last channel, the most negative immediate; every bit operand set. -/
theorem test_witness_decodeOfEncode :
    (Instr.write 3 0x80000000).wf = true ∧ (Instr.pins 3 true true).wf = true ∧ (Instr.construct 0).wf = true := by decide

/-- EncodeOfDecodeIsTheWord. -/
theorem test_witness_encodeOfDecode : decode 0x5880000000 = .ok (.write 3 0x80000000) := by decide

/-- InvalidDescriptorsAreRefused: a word of each of R52's four cases, a valid one, and one presented. -/
theorem test_witness_invalidDescriptors :
    decode 0xFFFFFFFFFF = .error .reservedSet ∧ decode 0x4400000000 = .error (.aSet .write) ∧
      decode 0x8200000000 = .error (.bSet .setrev) ∧ decode 0xE000000001 = .error (.immSet .pins) ∧
      decode 0x40FFFFFFFF = .ok (.write 0 0xFFFFFFFF) ∧ (0x40FFFFFFFF : Descriptor) &&& 0xE700000000 = 0x4000000000 ∧
      (presenting .cmd 0x8200000000 (calmA 0 false)).inputs = .op .cmd 0x8200000000 ⟨.direction, 1⟩ :: [] ∧
      (presenting .cmd 0x8200000000 (calmA 0 false)).settled ∧
      refusal (step (presenting .cmd 0x8200000000 (calmA 0 false))) = some (.invalidDescriptor (.bSet .setrev)) :=
  ⟨by decide, by decide, by decide, by decide, by decide, by decide, by decide, calmA_settled _ _ _, by decide⟩

/-- StepRunsTheDecodedOperation: with no event raised, an event past the command port and a host operation on it. -/
theorem test_witness_stepRuns_settled :
    (presenting .direct 0xA400000000 (calmA 0 false)).inputs = .op .direct 0xA400000000 ⟨.direction, 1⟩ :: [] ∧
      decode 0xA400000000 = .ok (.trig 0 true false) ∧
      (presenting .cmd 0x2000000000 (calmA 7 false)).inputs = .op .cmd 0x2000000000 ⟨.direction, 1⟩ :: [] ∧
      decode 0x2000000000 = .ok (.read 0) ∧ (Instr.read 0).op.issuedBy = .host ∧
      (presenting .cmd 0x2000000000 (calmA 7 false)).settled ∧
      (reached (step (presenting .cmd 0x2000000000 (calmA 7 false)))).map State.out = some (.result 7) :=
  ⟨by decide, by decide, by decide, by decide, by decide, calmA_settled _ _ _, by decide⟩

/-- StepRunsTheDecodedOperation: between two events, where no event is due and channel B has none: a READ, a directly issued TRIG of channel B,
a PINS of channel B, CONSTRUCT D. -/
theorem test_witness_stepRuns_between :
    ((halfway.raised .A).map Raised.room = [1] ∧ halfway.raised .B = [] ∧ halfway.raised .C = [] ∧ halfway.raised .D = []) ∧
      decode 0xAC00000000 = .ok (.trig 1 true false) ∧ decode 0xEC00000000 = .ok (.pins 1 true false) ∧
      (Instr.pins 1 true false).op = .pins ∧ (Instr.pins 1 true false).ch = Channel.B.index ∧
      [0x2000000000, 0xAC00000000, 0xEC00000000, 0x1800000000].map
          (fun w => (reached (step (presenting .direct w halfway))).map fun t =>
            (t.out, t.position .A, t.position .B, (t.raised .A).map Raised.room)) =
        [some (.result 1, some 1, some 5, [0]), some (.none, some 1, some 6, [0]), some (.none, some 1, some 5, [0]),
          some (.fault (.lateConstruct .D), some 1, some 5, [0])] := by decide

/-- CommandPortTreatsEventsAsConfigured: TRIG and PINS are no host operations. -/
theorem test_witness_commandPort :
    (presenting .cmd 0xA400000000 (calmA 0 false)).settled ∧
      (presenting .cmd 0xA400000000 (calmA 0 false)).inputs = .op .cmd 0xA400000000 ⟨.direction, 1⟩ :: [] ∧
      decode 0xA400000000 = .ok (.trig 0 true false) ∧ (Instr.trig 0 true false).op.issuedBy ≠ .host ∧
      (Instr.pins 3 true true).op.issuedBy ≠ .host :=
  ⟨calmA_settled _ _ _, by decide, by decide, by decide, by decide⟩

/-- RaisedEventRunsItsHandler: a due event, a READ presented; an event with room, and a PINS of its channel, nothing, or an invalid word
presented. The step is the trigger event, -1. -/
theorem test_witness_raisedEvent :
    (halfwayRoom 0).raised .A = [⟨⟨.trigger, true, true⟩, 0⟩] ∧ halfway.raised .A = [⟨⟨.trigger, true, true⟩, 1⟩] ∧ halfway.inputs = [] ∧
      decode 0xE000000000 = .ok (.pins 0 false false) ∧ decode 0x8200000000 = .error (.bSet .setrev) ∧
      [presenting .cmd 0x2000000000 (halfwayRoom 0), presenting .direct 0xE000000000 halfway, halfway,
          presenting .cmd 0x8200000000 halfway].map
        (fun s => (reached (step s)).map fun t => (t.position .A, t.raised .A, t.inputs.length)) =
      [some (some 0, [], 1), some (some 0, [], 1), some (some 0, [], 0), some (some 0, [], 1)] := by decide

/-- RaisedEventRunsItsHandler, its first clause: of two channels with a due event, the first has its turn; nothing is presented. -/
theorem test_witness_raisedEvent_first :
    let s := (halfwayRoom 0).setChan .B (withRaised [⟨⟨.direction, true, false⟩, 0⟩] (owned 5 false))
    noReset s.inputs ∧ Channel.A.index < Channel.B.index ∧
      (reached (step s)).map (fun t => (t.position .A, t.position .B, (t.raised .B).length)) = some (some 0, some 5, 1) :=
  ⟨noReset_nil, by decide, by decide⟩

/-- ResetDiscardsEverything: with a count, a fault and a raised event. -/
theorem test_witness_reset :
    ({ halfway with fault := some (.reclaim .A), inputs := [.rst, .rst] } : State).inputs = .rst :: [.rst] ∧
      reached (step { halfway with fault := some (.reclaim .A), inputs := [.rst, .rst] }) =
        some { State.reset with inputs := [.rst] } := by decide

/-- EveryOperationEndsInOneStep has no hypothesis; a step with nothing presented is refused, not faulted. -/
theorem test_endOfInputs : refusal (step State.reset) = some .endOfInputs := by decide

/-- ConstructClaimsOnceBeforeEvents: claimed, started or not; unclaimed and started; unclaimed and not. -/
theorem test_witness_construct :
    (calmA 0 false).claimed .A = true ∧ halfway.claimed .A = true ∧
      (halfway.claimed .D = false ∧ halfway.started = true) ∧ (State.reset.claimed .D = false ∧ State.reset.started = false) := by
  decide

/-- ReadReturnsPosition, IsrevReturnsReversed, WriteOverwritesPosition, SetrevWritesReversed, TrigCountsByItsPredicate,
DirCountsByItsPredicate, HandlersAreOpposite, CounterIsExactButWrapsAtTheEnds, ReadRaceSeesOneOfTwoValues,
WriteAndSetrevRacesHaveTwoOutcomes: a claimed channel at each end of the range with each flag, and an unclaimed one. -/
theorem test_witness_channel :
    ((calmA 0x80000000 true).position .A = some 0x80000000 ∧ (calmA 0x80000000 true).reversed .A = some true) ∧
      ((calmA 0x7FFFFFFF false).position .A = some 0x7FFFFFFF ∧ (calmA 0x7FFFFFFF false).reversed .A = some false) ∧
      (calmA 0x7FFFFFFF false).claimed .A = true ∧ (calmA 0 false).claimed .B = false := by decide

/-- CounterIsExactButWrapsAtTheEnds: each of its four cases. -/
theorem test_witness_counter :
    (cw .trigger true false false = true ∧ (0x7FFFFFFF : Word).toInt = 2147483647) ∧
      (cw .direction true true false = true ∧ (0x80000000 : Word).toInt ≠ 2147483647) ∧
      (cw .trigger true false true = false ∧ (0x80000000 : Word).toInt = -2147483648) ∧
      (cw .direction true true true = false ∧ (0x7FFFFFFF : Word).toInt ≠ -2147483648) := by decide

/-- HostAccessLaws, ReadsAreSilentWritesIdempotent, EdgeEventsCommute: a claimed channel, an operation of it and one of another. -/
theorem test_witness_hostAccess :
    (calmA 0x7FFFFFFF true).claimed .A = true ∧ (Instr.setrev 0 true).ch = Channel.A.index ∧
      (Instr.setrev 0 true).op ∈ [Op.read, .write, .isrev, .setrev] ∧ (Instr.construct 3).ch = Channel.D.index ∧
      Channel.D ≠ Channel.A := by decide

/-- ReversalNegatesEveryDelta: two states that differ in the flag alone. -/
theorem test_witness_reversal :
    (calmA 0 false).position .A = some 0 ∧ (calmA 0 false).reversed .A = some false ∧
      (calmA 0 true).position .A = some 0 ∧ (calmA 0 true).reversed .A = some (!false) := by decide

/-- PinsCountsTheChangedLines, QuadratureCycleCountsFour, BothLinesAtOnceCancel: levels (0,0), no event raised. From them (1,1) changes both
lines, (1,0) the trigger line, (0,1) the direction line, (0,0) neither; the last step leaves what the rules say. -/
theorem test_witness_pins :
    (calmA 0 false).position .A = some 0 ∧ (calmA 0 false).reversed .A = some false ∧
      (calmA 0 false).tPrev .A = some (!true) ∧ (calmA 0 false).dPrev .A = some (!true) ∧
      (calmA 0 false).tPrev .A ≠ some (!false) ∧ (calmA 0 false).dPrev .A ≠ some (!false) ∧
      Schedule.together.between = 0 ∧
      [(3, true, true), (2, true, false), (2, false, true), (1, false, false)].map
          (fun x => (reached (runSteps x.1 { calmA 0 false with inputs := [presents (.pins 0 x.2.1 x.2.2) Schedule.together] })).map
            fun t => (t.position .A, t.started, t.raised .A)) =
        [some (some 0, true, []), some (some 1, true, []), some (some (-1), true, []), some (some 0, false, [])] := by decide

/-- PinsCountsTheChangedLines, QuadratureCycleCountsFour, BothLinesAtOnceCancel, AnotherChannelsEventFallsBetween: no event raised, and what
is presented after is no reset. -/
theorem test_witness_settled : (calmA 0 false).settled ∧ (onA (sampled false true (owned 3 true))).settled ∧ noReset [] :=
  ⟨calmA_settled _ _ [], fun c => by cases c <;> rfl, noReset_nil⟩

/-- BothLinesAtOnceCancel, its second clause: a READ between the two events sees one tick. -/
theorem test_witness_between :
    let s : State := { calmA 0 false with inputs := [presents (.pins 0 true true) ⟨.direction, 1⟩, .op .cmd (encode (.read 0)) ⟨.trigger, 0⟩] }
    (reached (runSteps 3 s)).map (fun v => (v.out, v.position .A)) = some (.result 1, some 1) ∧
      (reached (runSteps 4 s)).map (fun w => (w.position .A, w.raised .A)) = some (some 0, []) := by decide

/-- AnotherChannelsEventFallsBetween: TRIG of channel B between DIR and TRIG of channel A. -/
theorem test_witness_otherChannel :
    let s : State := { (calmA 0 false).setChan .B (owned 5 false) with
      inputs := [presents (.pins 0 true true) ⟨.direction, 1⟩, presents ((EdgeEvent.mk .trigger true false).instr .B) ⟨.trigger, 0⟩] }
    (Channel.B ≠ Channel.A ∧ s.position .B = some 5 ∧ s.reversed .B = some false ∧ s.position .A = some 0 ∧ s.tPrev .A = some (!true)) ∧
      (s.raised .A = [] ∧ s.raised .B = [] ∧ s.raised .C = [] ∧ s.raised .D = []) ∧
      (reached (runSteps 3 s)).map (fun u => (u.position .A, u.position .B)) = some (some 1, some 6) ∧
      (reached (runSteps 4 s)).map (fun v => (v.position .A, v.position .B)) = some (some 0, some 6) := by decide

/-- TraceTakesAStepPerOperationAndEvent: a settled state and a trace of accepted operations, on either port. -/
theorem test_witness_trace :
    let s : State := { calmA 0 false with inputs :=
      [.op .cmd 0x0800000000 ⟨.trigger, 0⟩, .op .direct 0xE600000000 ⟨.trigger, 2⟩, .op .cmd 0x2000000000 ⟨.trigger, 0⟩,
        .op .direct 0xAC00000000 ⟨.trigger, 0⟩] }
    (decode 0x0800000000 = .ok (.construct 1) ∧ decode 0xE600000000 = .ok (.pins 0 true true) ∧ decode 0x2000000000 = .ok (.read 0) ∧
        decode 0xAC00000000 = .ok (.trig 1 true false)) ∧
      ((Instr.construct 1).op.issuedBy = .host ∧ (Instr.read 0).op.issuedBy = .host) ∧ s.settled :=
  ⟨by decide, by decide, calmA_settled _ _ _⟩

/-- PinsPlacesItsEvents: an unclaimed channel; on a claimed one neither line changed, the trigger line, the direction line; both, in each
order. -/
theorem test_witness_pinsPlacement :
    State.reset.claimed .A = false ∧ (calmA 0 false).claimed .A = true ∧
      ((calmA 0 false).tPrev .A ≠ some (!false) ∧ (calmA 0 false).dPrev .A ≠ some (!false)) ∧
      ((calmA 0 false).tPrev .A = some (!true) ∧ (calmA 0 false).dPrev .A ≠ some (!false)) ∧
      ((calmA 0 false).tPrev .A ≠ some (!false) ∧ (calmA 0 false).dPrev .A = some (!true)) ∧
      ((calmA 0 false).tPrev .A = some (!true) ∧ (calmA 0 false).dPrev .A = some (!true)) ∧
      [Schedule.mk .trigger 0, .mk .direction 2].map
          (fun pl => (reached (exec (.pins 0 true true) { calmA 0 false with schedule := pl })).map fun t => t.raised .A) =
        [some [⟨⟨.trigger, true, true⟩, 0⟩, ⟨⟨.direction, true, true⟩, 0⟩],
          some [⟨⟨.direction, true, true⟩, 0⟩, ⟨⟨.trigger, true, true⟩, 2⟩]] := by decide

/-- RaisedEventsGetTheirTurn: a state of the invariant with a raised event that has room and one with none; a sampling instant that is taken. -/
theorem test_witness_turn :
    halfway.Inv ∧ halfway.raised .A = ⟨⟨.trigger, true, true⟩, 1⟩ :: [] ∧ (halfwayRoom 0).raised .A = ⟨⟨.trigger, true, true⟩, 0⟩ :: [] ∧
      decode 0xE600000000 = .ok (.pins 0 true true) ∧ (Instr.pins 0 true true).ch = Channel.A.index ∧
      (reached (step (presenting .direct 0xE600000000 (calmA 0 false)))).map State.inputs = some [] :=
  ⟨halfway_inv, by decide, by decide, by decide, by decide, by decide⟩

/-- FirstSamplesAndUnclaimedLinesRaiseNothing: a claimed channel and an unclaimed one that have seen no level, and an unclaimed one that has. -/
theorem test_witness_firstSample :
    ((onA (owned 0 false)).tPrev .A = none ∧ (onA (owned 0 false)).dPrev .A = none) ∧
      (onA (sampled true false Chan.reset)).claimed .A = false ∧
      (State.reset.claimed .A = false ∧ State.reset.started = false) := by decide

/-- FirstSamplesAndUnclaimedLinesRaiseNothing, its third clause: PINS before construction, then each of its three cases after it. -/
theorem test_witness_sampleBeforeConstruction :
    (∀ c, State.reset.raised c = []) ∧ noReset [] ∧
      [(3, true, false), (4, false, false), (4, true, true)].map
          (fun x => (reached (runSteps x.1 { State.reset with inputs := [presents (.pins 0 true false) ⟨.trigger, 0⟩,
              presents (.construct 0) ⟨.trigger, 0⟩, presents (.pins 0 x.2.1 x.2.2) ⟨.trigger, 0⟩] })).map
            fun t => (t.position .A, t.started)) =
        [some (some 0, false), some (some (-1), true), some (some 1, true)] :=
  ⟨fun c => by cases c <;> rfl, noReset_nil, by decide⟩

/-- FaultsChangeOnlyTheRecord: an operation that faults, one that does not; a fault recorded, no reset next, a step that answers. -/
theorem test_witness_faults :
    outOf (.construct 0) halfway = some (.fault (.reclaim .A)) ∧ outOf (.read 0) halfway = some (.result 1) ∧
      ({ halfway with fault := some (.reclaim .A) } : State).fault = some (.reclaim .A) ∧
      (∀ rest, ({ halfway with fault := some (.reclaim .A) } : State).inputs ≠ .rst :: rest) ∧
      (reached (step { halfway with fault := some (.reclaim .A) })).isSome = true :=
  ⟨by decide, by decide, by decide, fun _ h => (by cases h), by decide⟩

/-- UnclaimedChannelFaults: each of the six operations on an unclaimed channel. -/
theorem test_witness_unclaimed :
    (∀ i ∈ [Instr.trig 3 true true, .dir 3 false false, .read 3, .write 3 1, .isrev 3, .setrev 3 true],
      i.ch = Channel.D.index ∧ i.op ∈ [Op.trig, .dir, .read, .write, .isrev, .setrev]) ∧
      halfway.claimed .D = false := by decide

/-- BadChannelFaultsAndIsNeverStepped: the first number above 3; a step that reaches a state. -/
theorem test_witness_badChannel :
    4 ≤ (Instr.pins 4 true true).ch ∧ outOf (.pins 4 true true) State.reset = some (.fault (.badChannel 4 .pins)) ∧
      (reached (step (State.reset.withFetchWord 40 0))).isSome = true := by decide

/-- OnlyTheListedOperationsWrite: operations that change each of the locations. -/
theorem test_witness_writers :
    (reached (exec (.write 0 1) (calmA 0 false))).map (fun t => t.load .A .pos) ≠ some ((calmA 0 false).load .A .pos) ∧
      (reached (exec (.setrev 0 true) (calmA 0 false))).map (fun t => t.load .A .rev) ≠ some ((calmA 0 false).load .A .rev) ∧
      (reached (exec (.construct 1) (calmA 0 false))).map (fun t => t.claimed .B) ≠ some ((calmA 0 false).claimed .B) ∧
      (reached (exec (.pins 0 true false) (calmA 0 false))).map (fun t => t.tPrev .A) ≠ some ((calmA 0 false).tPrev .A) ∧
      (reached (exec (.pins 0 true true) (calmA 0 false))).map (fun t => t.raised .A) ≠ some ((calmA 0 false).raised .A) ∧
      (reached (exec (.trig 0 true false) (calmA 0 false))).map State.started ≠ some (calmA 0 false).started := by decide

/-- ChannelsAreIsolated: two states that agree on channel A alone. -/
theorem test_witness_isolation :
    (Instr.trig 0 true false).ch = Channel.A.index ∧ (Instr.trig 0 true false).ch ≠ Channel.B.index ∧
      (calmA 0 false).chan .A = ((calmA 0 false).setChan .B (owned 5 true)).chan .A ∧
      (calmA 0 false).schedule = ((calmA 0 false).setChan .B (owned 5 true)).schedule ∧
      (reached (exec (.trig 0 true false) (calmA 0 false))).isSome = true ∧
      (reached (exec (.trig 0 true false) ((calmA 0 false).setChan .B (owned 5 true)))).isSome = true := by decide

/-- EveryStepKeepsTheInvariant, StateInvariantsHoldAlongEveryStep: a state of the invariant, with a raised event, that steps. -/
theorem test_witness_invariant :
    halfway.Inv ∧ (reached (step halfway)).isSome = true ∧ (∀ rest, halfway.inputs ≠ .rst :: rest) :=
  ⟨halfway_inv, by decide, fun _ h => (by cases h)⟩

end Sys2Proof.Tests
end

section
/-! SUPPORT. What an operation can do, said once, and what every step keeps (R30). -/

namespace Sys2Proof.Machine

/-! The checks of R100 and R65, as the two ways they end. -/

/-- An operation on a channel number faults on the number, or names a channel and goes on with it (R100). -/
theorem onChannel_cases (ch : Nat) (op : Op) (s : State) (k : Channel → State) :
    onChannel ch op s k = s.raise (.badChannel ch op) ∨ ∃ c : Channel, ch = c.index ∧ onChannel ch op s k = k c := by
  rcases Channel.number_cases ch with ⟨c, rfl⟩ | h
  · exact .inr ⟨c, rfl, onChannel_index c op s k⟩
  · exact .inl (onChannel_of_ge h op s k)

/-- An operation on a claimed channel faults, the fault recording the number and the operation, or goes on with the channel and its
decoder (R65, R100). -/
theorem onDecoder_cases (ch : Nat) (op : Op) (s : State) (k : Channel → Decoder → State) :
    (∃ f : Fault, f.operation = op ∧ f.channel = ch ∧ onDecoder ch op s k = s.raise f) ∨
      ∃ (c : Channel) (d : Decoder), ch = c.index ∧ s.decoder c = some d ∧ onDecoder ch op s k = k c d := by
  rcases Channel.number_cases ch with ⟨c, rfl⟩ | h
  · cases hd : s.decoder c with
    | none => exact .inl ⟨.unclaimed c op, rfl, rfl, onDecoder_unclaimed hd op k⟩
    | some d => exact .inr ⟨c, d, rfl, hd, onDecoder_claimed hd op k⟩
  · exact .inl ⟨.badChannel ch op, rfl, rfl, onDecoder_of_ge h op s k⟩

/-- An edge event on a channel number faults, the fault recording the number and the operation, or is delivered to a claimed channel
(R78, R100). -/
theorem onChannel_edgeEvent_cases (ch : Nat) (e : EdgeEvent) (s : State) :
    let t := onChannel ch e.line.op s fun c => s.edgeEvent c e
    (∃ f : Fault, f.operation = e.line.op ∧ f.channel = ch ∧ t = s.raise f) ∨
      ∃ c : Channel, ch = c.index ∧ s.claimed c = true ∧ t = s.edgeEvent c e := by
  intro t
  rcases onChannel_cases ch e.line.op s fun c => s.edgeEvent c e with ht | ⟨c, hc, ht⟩
  · exact .inl ⟨_, rfl, rfl, ht⟩
  · cases hd : s.decoder c with
    | none => exact .inl ⟨.unclaimed c e.line.op, rfl, hc.symm, ht.trans (edgeEvent_unclaimed hd e)⟩
    | some d => exact .inr ⟨c, hc, (s.claimed_iff c).2 ⟨d, hd⟩, ht⟩

/-- Everything an operation can do: fault, the fault recording its channel number and itself; or, on the channel it names, produce a
result, write the decoder, deliver an edge event to a claimed channel, or sample the lines (R48, R98). -/
theorem exec_cases {s t : State} {i : Instr} (h : exec i s = .next t) :
    (∃ f : Fault, f.operation = i.op ∧ f.channel = i.ch ∧ t = s.raise f) ∨
    ∃ c : Channel, i.ch = c.index ∧
      ((i.op ∈ [Op.read, .isrev] ∧ ∃ w, t = s.withResult w) ∨
       (i.op ∈ [Op.construct, .write, .setrev] ∧ ∃ d, t = (s.setDecoder c d).noResult) ∨
       (s.claimed c = true ∧ ∃ e : EdgeEvent, i = e.instr c ∧ t = s.edgeEvent c e) ∨
       ∃ x y, i = .pins c.index x y ∧ t = s.sample c x y) := by
  cases i with
  | construct ch =>
    injection h with h; subst h
    rcases onChannel_cases ch .construct s _ with ht | ⟨c, rfl, ht⟩
    · exact .inl ⟨_, rfl, rfl, ht⟩
    · rw [ht]
      split_ifs
      · exact .inl ⟨.reclaim c, rfl, rfl, rfl⟩
      · exact .inl ⟨.lateConstruct c, rfl, rfl, rfl⟩
      · exact .inr ⟨c, rfl, .inr (.inl ⟨by simp [Instr.op], _, rfl⟩)⟩
  | read ch =>
    injection h with h; subst h
    exact (onDecoder_cases ch .read s _).imp id fun ⟨c, d, hc, _, ht⟩ => ⟨c, hc, .inl ⟨by simp [Instr.op], _, ht⟩⟩
  | write ch n =>
    injection h with h; subst h
    exact (onDecoder_cases ch .write s _).imp id fun ⟨c, d, hc, _, ht⟩ => ⟨c, hc, .inr (.inl ⟨by simp [Instr.op], _, ht⟩)⟩
  | isrev ch =>
    injection h with h; subst h
    exact (onDecoder_cases ch .isrev s _).imp id fun ⟨c, d, hc, _, ht⟩ => ⟨c, hc, .inl ⟨by simp [Instr.op], _, ht⟩⟩
  | setrev ch b =>
    injection h with h; subst h
    exact (onDecoder_cases ch .setrev s _).imp id fun ⟨c, d, hc, _, ht⟩ => ⟨c, hc, .inr (.inl ⟨by simp [Instr.op], _, ht⟩)⟩
  | trig ch T D =>
    injection h with h; subst h
    refine (onChannel_edgeEvent_cases ch ⟨.trigger, T, D⟩ s).imp id ?_
    rintro ⟨c, rfl, hd, ht⟩
    exact ⟨c, rfl, .inr (.inr (.inl ⟨hd, _, rfl, ht⟩))⟩
  | dir ch T D =>
    injection h with h; subst h
    refine (onChannel_edgeEvent_cases ch ⟨.direction, T, D⟩ s).imp id ?_
    rintro ⟨c, rfl, hd, ht⟩
    exact ⟨c, rfl, .inr (.inr (.inl ⟨hd, _, rfl, ht⟩))⟩
  | pins ch x y =>
    injection h with h; subst h
    rcases onChannel_cases ch .pins s _ with ht | ⟨c, rfl, ht⟩
    · exact .inl ⟨_, rfl, rfl, ht⟩
    · exact .inr ⟨c, rfl, .inr (.inr (.inr ⟨x, y, rfl, ht⟩))⟩

/-- An operation of one channel leaves every other channel as it was (R30e, R85). -/
theorem exec_chan_of_ne {s t : State} {i : Instr} {c c' : Channel} (h : exec i s = .next t) (hi : i.ch = c.index)
    (hne : c' ≠ c) : t.chan c' = s.chan c' := by
  rcases exec_cases h with ⟨f, -, -, rfl⟩ | ⟨c₁, hc, hcase⟩
  · exact s.chan_raise f c'
  · obtain rfl : c = c₁ := Channel.index_injective (hi.symm.trans hc)
    rcases hcase with ⟨-, w, rfl⟩ | ⟨-, d, rfl⟩ | ⟨-, e, -, rfl⟩ | ⟨x, y, -, rfl⟩
    · exact s.chan_withResult w c'
    · exact s.chan_setDecoder_of_ne d hne
    · exact edgeEvent_chan_of_ne s e hne
    · exact sample_chan_of_ne s x y hne

/-! What every step but reset keeps. -/

/-- What R30 (b), (c), (d) and (f) ask of a change from `s` to `t`: `claimed`, `started` and the fault record stay set, and `started` is
newly set only where a channel is claimed. -/
structure Sticky (s t : State) : Prop where
  claimed_kept : ∀ c, s.claimed c = true → t.claimed c = true
  started_kept : s.started = true → t.started = true
  fault_kept : ∀ f, s.fault = some f → t.fault = some f
  started_from : t.started = true → s.started = true ∨ t.someClaimed

theorem Sticky.of_eq {s t : State} (hc : ∀ c, t.claimed c = s.claimed c) (hs : t.started = s.started) (hf : t.fault = s.fault) :
    Sticky s t where
  claimed_kept c h := (hc c).trans h
  started_kept h := hs.trans h
  fault_kept _ h := hf.trans h
  started_from h := .inl (hs.symm.trans h)

theorem Sticky.someClaimed {s t : State} (h : Sticky s t) : s.someClaimed → t.someClaimed
  | ⟨c, hc⟩ => ⟨c, h.claimed_kept c hc⟩

theorem Sticky.trans {s t u : State} (h : Sticky s t) (h' : Sticky t u) : Sticky s u where
  claimed_kept c hc := h'.claimed_kept c (h.claimed_kept c hc)
  started_kept hs := h'.started_kept (h.started_kept hs)
  fault_kept f hf := h'.fault_kept f (h.fault_kept f hf)
  started_from hu := (h'.started_from hu).elim (fun ht => (h.started_from ht).imp_right h'.someClaimed) .inr

/-- R30(d) along such a change. -/
theorem Sticky.started_claimed {s t : State} (h : Sticky s t) (hs : s.started = true → s.someClaimed) (ht : t.started = true) :
    t.someClaimed :=
  (h.started_from ht).elim (fun h' => h.someClaimed (hs h')) id

theorem sticky_raise (s : State) (f : Fault) : Sticky s (s.raise f) where
  claimed_kept _ h := h
  started_kept h := h
  fault_kept _ h := by simp [h]
  started_from := .inl

theorem sticky_setDecoder (s : State) (c : Channel) (d : Decoder) : Sticky s (s.setDecoder c d) where
  claimed_kept c' h := by
    by_cases hc : c' = c
    · subst hc; exact s.claimed_setDecoder c' d
    · rwa [State.claimed, State.decoder, State.chan_setDecoder_of_ne _ _ hc]
  started_kept h := h
  fault_kept _ h := h
  started_from := .inl

/-- An edge event sets `started` only on a claimed channel, and faults on an unclaimed one (R74, R76, R78). -/
theorem sticky_edgeEvent (s : State) (c : Channel) (e : EdgeEvent) : Sticky s (s.edgeEvent c e) := by
  cases hd : s.decoder c with
  | none => rw [edgeEvent_unclaimed hd]; exact sticky_raise s _
  | some d =>
    have hc : s.claimed c = true := (s.claimed_iff c).2 ⟨d, hd⟩
    obtain ⟨hstarted, -, hfault⟩ := edgeEvent_block hc e
    exact {
      claimed_kept := fun c' h => (edgeEvent_claimed_eq s c c' e).trans h
      started_kept := fun _ => hstarted
      fault_kept := fun f h => hfault.trans h
      started_from := fun _ => .inr ⟨c, (edgeEvent_claimed_eq s c c e).trans hc⟩ }

theorem sticky_exec {s t : State} {i : Instr} (h : exec i s = .next t) : Sticky s t := by
  rcases exec_cases h with ⟨f, -, -, rfl⟩ | ⟨c, -, ⟨-, w, rfl⟩ | ⟨-, d, rfl⟩ | ⟨-, e, -, rfl⟩ | ⟨x, y, -, rfl⟩⟩
  · exact sticky_raise s f
  · exact .of_eq (s.claimed_withResult w) rfl rfl
  · exact (sticky_setDecoder s c d).trans (.of_eq (State.claimed_noResult _) rfl rfl)
  · exact sticky_edgeEvent s c e
  · exact .of_eq (fun c' => by simp [State.claimed]) rfl rfl

/-- Which events of a channel are raised says nothing about who is claimed. -/
theorem State.claimed_setRaised (s : State) (c c' : Channel) (es : List Raised) :
    (s.setChan c { s.chan c with raised := es }).claimed c' = s.claimed c' := by
  by_cases hc : c' = c
  · subst hc; simp [State.claimed, State.decoder]
  · simp [State.claimed, State.decoder, State.chan_setChan_of_ne _ _ hc]

/-- A raised event's own step is its edge event, on a state in which only rooms and raised events differ. -/
theorem sticky_eventStep {s : State} {c : Channel} (h : s.hasRaised c = true) : Sticky s (s.eventStep c) := by
  obtain ⟨r, rest, hr⟩ := hasRaised_eq_true.1 h
  rw [eventStep_cons hr]
  have hraised : Sticky s (s.age.setChan c { s.age.chan c with raised := rest }) :=
    .of_eq (fun c' => (State.claimed_setRaised s.age c c' rest).trans (s.claimed_age c')) rfl rfl
  exact hraised.trans (sticky_edgeEvent _ c r.event)

/-- A step is reset, or keeps what is set. -/
theorem step_restart_or_sticky {s t : State} (h : step s = .next t) :
    (∃ rest, s.inputs = .rst :: rest ∧ t = State.restart rest) ∨ Sticky s t := by
  rcases step_cases h with hreset | ⟨-, c, hc, rfl⟩ | ⟨_, _, placement, rest, i, -, -, -, -, hexec⟩
  · exact .inl hreset
  · exact .inr (sticky_eventStep hc)
  · have htake : Sticky s (s.take rest placement) := .of_eq (s.claimed_take rest placement) rfl rfl
    exact .inr (htake.trans (sticky_exec hexec))

theorem sticky_step {s t : State} (h : step s = .next t) (hreset : noReset s.inputs) : Sticky s t :=
  (step_restart_or_sticky h).resolve_left fun ⟨rest, hi, _⟩ => hreset rest hi

/-- Every step, reset included, keeps R30(d). -/
theorem step_started_claimed {s t : State} (h : step s = .next t) (hs : s.started = true → s.someClaimed)
    (ht : t.started = true) : t.someClaimed := by
  rcases step_restart_or_sticky h with ⟨rest, -, rfl⟩ | hsticky
  · cases ht
  · exact hsticky.started_claimed hs ht

/-! R30(a), which holds of every state. -/

theorem State.hasPosition_iff (s : State) (c : Channel) : (∃ p, s.position c = some p) ↔ s.claimed c = true := by
  rw [← s.position_isSome, Option.isSome_iff_exists]

theorem State.hasReversed_iff (s : State) (c : Channel) : (∃ r, s.reversed c = some r) ↔ s.claimed c = true := by
  rw [← s.reversed_isSome, Option.isSome_iff_exists]

/-! The reset state and the two statements. -/

@[simp] theorem State.chan_reset (c : Channel) : State.reset.chan c = Chan.reset := by
  cases c <;> rfl

/-- Settles O42: every step but reset keeps what is set (`sticky_step`), and an operation does one of five things, none of them to
another channel (`exec_cases`). -/
theorem stateInvariantsHoldAlongEveryStep : Obligations.StateInvariantsHoldAlongEveryStep := by
  refine ⟨fun s t hinv h => ⟨fun c => ⟨t.hasPosition_iff c, t.hasReversed_iff c⟩, fun hreset => ?_,
    step_started_claimed h hinv.started_claimed⟩, fun _ _ _ _ _ hi hne h => exec_chan_of_ne h hi hne⟩
  obtain ⟨hclaimed, hstarted, hfault, -⟩ := sticky_step h hreset
  exact ⟨hclaimed, hstarted, hfault⟩

/-- Settles O10: each channel after reset is `Chan.reset`, which holds no decoder and no level. -/
theorem resetState : Obligations.ResetState :=
  ⟨fun c => by simp [State.claimed, State.position, State.reversed, State.decoder, State.tPrev, State.dPrev, Chan.reset], rfl, rfl⟩

end Sys2Proof.Machine
end

section
/-! SUPPORT. The host accesses of a claimed channel, each as one update of the state (R66 to R70), and their effect done twice (R38). -/

namespace Sys2Proof.Machine

/-! What each host access does to a claimed channel. -/

theorem exec_read_claimed {s : State} {c : Channel} {d : Decoder} (h : s.decoder c = some d) :
    exec (.read c.index) s = .next (s.withResult d.position) :=
  congrArg Host.Outcome.next (onDecoder_claimed h .read _)

theorem exec_write_claimed {s : State} {c : Channel} {d : Decoder} (h : s.decoder c = some d) (n : Word) :
    exec (.write c.index n) s = .next (s.setDecoder c { d with position := n }).noResult :=
  congrArg Host.Outcome.next (onDecoder_claimed h .write _)

theorem exec_isrev_claimed {s : State} {c : Channel} {d : Decoder} (h : s.decoder c = some d) :
    exec (.isrev c.index) s = .next (s.withResult (zext32 d.reversed)) :=
  congrArg Host.Outcome.next (onDecoder_claimed h .isrev _)

theorem exec_setrev_claimed {s : State} {c : Channel} {d : Decoder} (h : s.decoder c = some d) (b : Bool) :
    exec (.setrev c.index b) s = .next (s.setDecoder c { d with reversed := b }).noResult :=
  congrArg Host.Outcome.next (onDecoder_claimed h .setrev _)

/-! Doing the same thing twice. -/

/-- Of two decoders written to one channel the second stays, whatever is on the port in between. -/
@[simp] theorem State.setDecoder_noResult_setDecoder (s : State) (c : Channel) (d d' : Decoder) :
    ((s.setDecoder c d).noResult.setDecoder c d').noResult = (s.setDecoder c d').noResult := by
  cases c <;> rfl

theorem exec_write_twice {s t : State} {c : Channel} {n : Word} (hs : s.claimed c = true)
    (h : exec (.write c.index n) s = .next t) : exec (.write c.index n) t = .next t := by
  obtain ⟨d, hd⟩ := (s.claimed_iff c).1 hs
  rw [exec_write_claimed hd] at h
  injection h with h; subst h
  rw [exec_write_claimed ((State.decoder_noResult _ c).trans (s.decoder_setDecoder c _)), State.setDecoder_noResult_setDecoder]

theorem exec_setrev_twice {s t : State} {c : Channel} {b : Bool} (hs : s.claimed c = true)
    (h : exec (.setrev c.index b) s = .next t) : exec (.setrev c.index b) t = .next t := by
  obtain ⟨d, hd⟩ := (s.claimed_iff c).1 hs
  rw [exec_setrev_claimed hd] at h
  injection h with h; subst h
  rw [exec_setrev_claimed ((State.decoder_noResult _ c).trans (s.decoder_setDecoder c _)), State.setDecoder_noResult_setDecoder]

/-- The same edge event twice on a claimed channel: the flag stays, so both tick the counter the same way (R73). -/
theorem edgeEvent_twice_decoder {s : State} {c : Channel} {p : Word} {r : Bool} (h : s.decoder c = some ⟨p, r⟩) (e : EdgeEvent) :
    ((s.edgeEvent c e).edgeEvent c e).decoder c = some ⟨tick (cw e.line e.T e.D r) (tick (cw e.line e.T e.D r) p), r⟩ :=
  edgeEvent_decoder (edgeEvent_decoder h e) e

theorem tick_twice (b : Bool) (p : Word) : tick b (tick b p) = if b then p + 2 else p - 2 := by
  cases b with
  | true => simp only [tick_eq_add, ↓reduceIte]; bv_omega
  | false => simp only [tick_eq_add, Bool.false_eq_true, ↓reduceIte]; bv_omega

/-- Settles O18: a read only puts a result on the port, a second equal write overwrites the decoder with itself, and an edge event
leaves the flag that decides the direction of the next. -/
theorem readsAreSilentWritesIdempotent : Obligations.ReadsAreSilentWritesIdempotent := by
  intro s c hs
  obtain ⟨⟨p, r⟩, hd⟩ := (s.claimed_iff c).1 hs
  refine ⟨⟨_, exec_read_claimed hd, rfl⟩, ⟨_, exec_isrev_claimed hd, rfl⟩, fun n => ?write, fun b => ?setrev,
    fun e q hq => ?events⟩
  case write => exact ⟨_, exec_write_claimed hd n, exec_write_twice hs (exec_write_claimed hd n)⟩
  case setrev => exact ⟨_, exec_setrev_claimed hd b, exec_setrev_twice hs (exec_setrev_claimed hd b)⟩
  case events =>
    obtain rfl : q = p := by simpa [State.position, hd] using hq.symm
    refine ⟨_, _, exec_edgeEvent_instr c e s, exec_edgeEvent_instr c e _, ?_⟩
    simp only [State.position, edgeEvent_decoder hd, edgeEvent_twice_decoder hd, Option.map_some, tick_twice]
    rw [tick_eq_add]
    cases cw e.line e.T e.D r with
    | true => exact .inl ⟨rfl, rfl⟩
    | false => exact .inr ⟨rfl, rfl⟩

end Sys2Proof.Machine
end

section
/-! SUPPORT. The opcode table's rows read field by field: each asks for its operation code and for exactly the must-be-zero fields of R52
to be 0. -/

namespace Sys2Proof

/-- No must-be-zero field is set: not `z`, nor `a`, `b` or `imm` where the operation has no such operand (R52). -/
theorem Fields.violation_eq_none {f : Fields} :
    f.violation = none ↔
      (f.a && !(Op.ofCode f.op).usesA) = false ∧ (f.b && !(Op.ofCode f.op).usesB) = false ∧ f.z = false ∧
        (f.imm = 0 ∨ (Op.ofCode f.op).usesImm = true) := by
  unfold Fields.violation
  dsimp only
  split_ifs <;> simp_all [or_iff_not_imp_left]

theorem Fields.violation_ne_none {f : Fields} :
    f.violation ≠ none ↔
      (f.a = true ∧ (Op.ofCode f.op).usesA = false) ∨ (f.b = true ∧ (Op.ofCode f.op).usesB = false) ∨ f.z = true ∨
        (f.imm ≠ 0 ∧ (Op.ofCode f.op).usesImm = false) := by
  simp only [Ne, Fields.violation_eq_none, not_and_or, not_or, Bool.not_eq_false, Bool.not_eq_true, Bool.and_eq_true,
    Bool.not_eq_true']

theorem Fields.instr_op (f : Fields) : f.instr.op = Op.ofCode f.op := by
  unfold Fields.instr
  split <;> simp_all [Instr.op]

theorem decode_isError {w : Descriptor} : (∃ e, decode w = .error e) ↔ (Fields.ofWord w).violation ≠ none := by
  simp only [decode_eq_error, Option.ne_none_iff_exists']

/-- The bitwise conjunction, field by field (`Fields.ofWord_and`). -/
def Fields.and (f g : Fields) : Fields where
  op  := f.op &&& g.op
  ch  := f.ch &&& g.ch
  a   := f.a && g.a
  b   := f.b && g.b
  z   := f.z && g.z
  imm := f.imm &&& g.imm

theorem Fields.ofWord_and (w m : Descriptor) : Fields.ofWord (w &&& m) = (Fields.ofWord w).and (Fields.ofWord m) := by
  simp only [Fields.ofWord, Fields.and, BitVec.extractLsb'_and, BitVec.getLsbD_and]

/-- The mask of an operation's row: the operation code, `z`, and the operands the operation does not have (R48). -/
def Op.rowMask (op : Op) : Fields where
  op  := BitVec.allOnes 3
  ch  := 0
  a   := !op.usesA
  b   := !op.usesB
  z   := true
  imm := if op.usesImm then 0 else BitVec.allOnes 32

/-- The pattern of an operation's row: its code, and 0 everywhere else (R48). -/
def Op.rowPattern (op : Op) : Fields where
  op  := op.code
  ch  := 0
  a   := false
  b   := false
  z   := false
  imm := 0

/-- The numbers R48 prints are these masks and patterns, so a row asks for its code and for its must-be-zero fields. -/
theorem opcodeRows_fields : ∀ r ∈ opcodeRows, Fields.ofWord r.mask = r.op.rowMask ∧ Fields.ofWord r.pattern = r.op.rowPattern := by
  decide

theorem opcodeRows_complete (op : Op) : ∃ r ∈ opcodeRows, r.op = op := by
  cases op <;> decide

theorem Op.code_eq_iff {code : BitVec 3} {op : Op} : code = op.code ↔ Op.ofCode code = op :=
  ⟨fun h => h ▸ Op.ofCode_code op, fun h => h ▸ (Op.code_ofCode code).symm⟩

/-- Fields under an operation's mask are its pattern exactly when they have its code and no must-be-zero field is set. -/
theorem Fields.and_rowMask_eq_rowPattern {f : Fields} {op : Op} :
    f.and op.rowMask = op.rowPattern ↔ Op.ofCode f.op = op ∧ f.violation = none := by
  have hop : f.op &&& op.rowMask.op = op.code ↔ Op.ofCode f.op = op := by
    rw [← Op.code_eq_iff, Op.rowMask, BitVec.and_allOnes]
  have hch : f.ch &&& op.rowMask.ch = 0 := BitVec.and_zero
  have himm : f.imm &&& op.rowMask.imm = 0 ↔ f.imm = 0 ∨ op.usesImm = true := by
    cases h : op.usesImm with
    | false => rw [show op.rowMask.imm = BitVec.allOnes 32 by simp [Op.rowMask, h], BitVec.and_allOnes]; simp
    | true => rw [show op.rowMask.imm = 0 by simp [Op.rowMask, h]]; simp
  have hz : (f.z && op.rowMask.z) = f.z := Bool.and_true f.z
  simp only [Fields.and, Op.rowPattern, Fields.mk.injEq, hop, hch, hz, himm, true_and]
  refine and_congr_right fun h => ?_
  rw [Fields.violation_eq_none, h]
  rfl

/-- A word matches an operation's row exactly when it has the operation's code and no must-be-zero field is set (R48, R52). -/
theorem opcodeRows_match_iff {r : OpcodeRow} (hr : r ∈ opcodeRows) (w : Descriptor) :
    w &&& r.mask = r.pattern ↔ Op.ofCode (Fields.ofWord w).op = r.op ∧ (Fields.ofWord w).violation = none := by
  obtain ⟨hmask, hpattern⟩ := opcodeRows_fields r hr
  rw [← Fields.and_rowMask_eq_rowPattern, ← hmask, ← hpattern, ← Fields.ofWord_and]
  exact ⟨congrArg Fields.ofWord, Fields.ofWord_injective⟩

/-- A word matches no row exactly when it is invalid: the row of its operation is the one it could match. -/
theorem opcodeRows_no_match_iff (w : Descriptor) :
    (∀ r ∈ opcodeRows, w &&& r.mask ≠ r.pattern) ↔ (Fields.ofWord w).violation ≠ none := by
  constructor
  · intro h hv
    obtain ⟨r, hr, hop⟩ := opcodeRows_complete (Op.ofCode (Fields.ofWord w).op)
    exact h r hr ((opcodeRows_match_iff hr w).2 ⟨hop.symm, hv⟩)
  · exact fun hv r hr h => hv ((opcodeRows_match_iff hr w).1 h).2

theorem Op.usesA_eq_false {op : Op} : op.usesA = false ↔ op = .construct ∨ op = .read ∨ op = .write ∨ op = .isrev := by
  cases op <;> decide

theorem Op.usesB_eq_false {op : Op} : op.usesB = false ↔ op.usesA = false ∨ op = .setrev := by
  cases op <;> decide

theorem Op.usesImm_eq_false {op : Op} : op.usesImm = false ↔ op ≠ .write := by
  cases op <;> decide

/-- The must-be-zero fields as R52 lists them, operation by operation. -/
theorem decode_isError_iff_listed (w : Descriptor) :
    let f := Fields.ofWord w
    let op := Op.ofCode f.op
    (∃ e, decode w = .error e) ↔
      f.z = true ∨
      ((f.a = true ∨ f.b = true) ∧ (op = .construct ∨ op = .read ∨ op = .write ∨ op = .isrev)) ∨
      (f.b = true ∧ op = .setrev) ∨
      (f.imm ≠ 0 ∧ op ≠ .write) := by
  intro f op
  rw [decode_isError, Fields.violation_ne_none, Op.usesB_eq_false, Op.usesA_eq_false, Op.usesImm_eq_false]
  tauto

end Sys2Proof

namespace Sys2Proof.Machine

/-- With no event raised, what the boundary refuses the step refuses, for the same reason. -/
theorem step_refused {s : State} {p : Port} {w : Descriptor} {placement : Schedule} {rest : List Input} {r : Refusal}
    (hs : s.settled) (hi : s.inputs = .op p w placement :: rest) (hb : boundary p w = .error r) : step s = .refused r := by
  unfold step
  simp only [hi, turn_of_settled hs, hb]

theorem boundary_invalid {w : Descriptor} {e : DecodeError} (h : decode w = .error e) (p : Port) :
    boundary p w = .error (.invalidDescriptor e) := by
  simp only [boundary, h]

/-- Settles O5: R52's list is what the decoder checks (`decode_isError_iff_listed`), each row's mask asks for the same fields to be 0
(`opcodeRows_match_iff`), and the boundary comes before the operation (`step_refused`). -/
theorem invalidDescriptorsAreRefused : Obligations.InvalidDescriptorsAreRefused := by
  intro w f op
  refine ⟨decode_isError_iff_listed w, decode_isError.trans (opcodeRows_no_match_iff w).symm, ?row, ?refused⟩
  case row =>
    intro i hi r hr hmatch
    obtain ⟨-, rfl⟩ := decode_eq_ok.1 hi
    exact ((opcodeRows_match_iff hr w).1 hmatch).1.symm.trans (Fields.instr_op _).symm
  case refused => exact fun e he s p placement rest hs hin => step_refused hs hin (boundary_invalid he p)

/-- Settles O1: each row of R59, read, decoded and encoded. -/
theorem workedEncodingsDecodeAndEncode : Obligations.WorkedEncodingsDecodeAndEncode := by
  unfold Obligations.WorkedEncodingsDecodeAndEncode
  decide

end Sys2Proof.Machine
end

section
/-! SUPPORT. The three ways CONSTRUCT ends, each as one update of the state (R61 to R63), and what writing a decoder leaves unchanged. -/

namespace Sys2Proof.Machine

theorem exec_construct_claimed {s : State} {c : Channel} (h : s.claimed c = true) :
    exec (.construct c.index) s = .next (s.raise (.reclaim c)) := by
  simp [exec, execConstruct, h]

theorem exec_construct_late {s : State} {c : Channel} (h : s.claimed c = false) (hs : s.started = true) :
    exec (.construct c.index) s = .next (s.raise (.lateConstruct c)) := by
  simp [exec, execConstruct, h, hs]

theorem exec_construct_unclaimed {s : State} {c : Channel} (h : s.claimed c = false) (hs : s.started = false) :
    exec (.construct c.index) s = .next (s.setDecoder c { position := 0, reversed := false }).noResult := by
  simp [exec, execConstruct, h, hs]

/-- Writing a channel's decoder stays inside that channel: so do CONSTRUCT, WRITE and SETREV (R85). -/
theorem sameOutside_setDecoder_noResult (s : State) (c : Channel) (d : Decoder) :
    SameOutside c s (s.setDecoder c d).noResult where
  others _ hc := s.chan_setDecoder_of_ne d hc
  inputs := rfl
  schedule := rfl

/-- Settles O12: whether the channel is claimed is asked before whether events have started, so one of the three lemmas on CONSTRUCT
applies; the claimed channel holds the new decoder, and writing that changes nothing else. -/
theorem constructClaimsOnceBeforeEvents : Obligations.ConstructClaimsOnceBeforeEvents := by
  refine fun s c => ⟨exec_construct_claimed, exec_construct_late, fun hc hs => ⟨_, exec_construct_unclaimed hc hs, ?_⟩⟩
  simp [sameOutside_setDecoder_noResult]

end Sys2Proof.Machine
end

section
/-! SUPPORT. The host accesses on an unclaimed channel, and what each answers and leaves unchanged (R65 to R70). -/

namespace Sys2Proof.Machine

/-- The six operations that need a decoder fault where none owns the channel (R65, R78, R98). -/
theorem exec_unclaimed {s : State} {c : Channel} {i : Instr} (hi : i.ch = c.index)
    (hop : i.op ∈ [Op.trig, .dir, .read, .write, .isrev, .setrev]) (h : s.claimed c = false) :
    exec i s = .next (s.raise (.unclaimed c i.op)) := by
  have hd : s.decoder c = none := (s.not_claimed_iff c).1 h
  cases i with
  | construct | pins => simp [Instr.op] at hop
  | trig ch T D =>
    obtain rfl : ch = c.index := hi
    exact (exec_edgeEvent_instr c ⟨.trigger, T, D⟩ s).trans (congrArg _ (edgeEvent_unclaimed hd _))
  | dir ch T D =>
    obtain rfl : ch = c.index := hi
    exact (exec_edgeEvent_instr c ⟨.direction, T, D⟩ s).trans (congrArg _ (edgeEvent_unclaimed hd _))
  | read ch | write ch n | isrev ch | setrev ch b =>
    obtain rfl : ch = c.index := hi
    exact congrArg _ (onDecoder_unclaimed hd _ _)

theorem zext32_eq_ite (b : Bool) : zext32 b = if b then 1 else 0 := by
  cases b <;> rfl

/-- Settles O13: the position READ answers is that of the channel's decoder. -/
theorem readReturnsPosition : Obligations.ReadReturnsPosition := by
  refine fun s c => ⟨fun p hp => ?_, exec_unclaimed rfl (by simp [Instr.op])⟩
  obtain ⟨d, hd, rfl⟩ := Option.map_eq_some_iff.1 hp
  exact exec_read_claimed hd

/-- Settles O15: the flag ISREV answers is that of the channel's decoder. -/
theorem isrevReturnsReversed : Obligations.IsrevReturnsReversed := by
  refine fun s c => ⟨fun r hr => ?_, exec_unclaimed rfl (by simp [Instr.op])⟩
  obtain ⟨d, hd, rfl⟩ := Option.map_eq_some_iff.1 hr
  exact (exec_isrev_claimed hd).trans (by rw [zext32_eq_ite]; rfl)

/-- Settles O14: WRITE replaces the decoder by one with the same flag, which changes nothing else. -/
theorem writeOverwritesPosition : Obligations.WriteOverwritesPosition := by
  refine fun s c n => ⟨fun hc => ?_, exec_unclaimed rfl (by simp [Instr.op])⟩
  obtain ⟨d, hd⟩ := (s.claimed_iff c).1 hc
  refine ⟨_, exec_write_claimed hd n, ?_⟩
  simp [sameOutside_setDecoder_noResult, (s.decoder_eq_some_iff c d).1 hd]

/-- Settles O16: SETREV replaces the decoder by one with the same counter, which changes nothing else. -/
theorem setrevWritesReversed : Obligations.SetrevWritesReversed := by
  refine fun s c b => ⟨fun hc => ?_, exec_unclaimed rfl (by simp [Instr.op])⟩
  obtain ⟨d, hd⟩ := (s.claimed_iff c).1 hc
  refine ⟨_, exec_setrev_claimed hd b, ?_⟩
  simp [sameOutside_setDecoder_noResult, (s.decoder_eq_some_iff c d).1 hd]

end Sys2Proof.Machine
end

section
/-! SUPPORT. An operation neither sees nor changes another channel or the port before it, and a host access is one update of its channel
and of the port (R72, R85). -/

namespace Sys2Proof.Machine

/-- The state with channel `c` and the port of the last step replaced: all that a host access of `c` writes. -/
def State.setChanOut (s : State) (c : Channel) (x : Chan) (o : Output) : State := { s.setChan c x with out := o }

theorem State.setChanOut_started (s : State) (c : Channel) (x : Chan) (o : Output) :
    (s.setChanOut c x o).started = s.started := rfl

theorem State.chan_setChanOut_of_ne (s : State) {c c' : Channel} (x : Chan) (o : Output) (h : c' ≠ c) :
    (s.setChanOut c x o).chan c' = s.chan c' :=
  s.chan_setChan_of_ne x h

theorem State.withResult_eq_setChanOut (s : State) (c : Channel) (w : Word) :
    s.withResult w = s.setChanOut c (s.chan c) (.result w) := by
  rw [State.setChanOut, State.setChan_chan, State.withResult]

theorem State.setDecoder_noResult_eq_setChanOut (s : State) (c : Channel) (d : Decoder) :
    (s.setDecoder c d).noResult = s.setChanOut c { s.chan c with decoder := some d } .none := rfl

/-! An operation of another channel comes to the same before and after channel `c` is replaced. -/

theorem onChannel_setChanOut {s s' : State} {c c' : Channel} {x : Chan} {op : Op} {k k' : Channel → State}
    (hk : k' c' = (k c').setChan c x) : onChannel c'.index op s' k' = (onChannel c'.index op s k).setChan c x := by
  simpa only [onChannel_index] using hk

section
variable {s : State} {c c' : Channel} (hne : c' ≠ c) (x : Chan) (o : Output)
include hne

theorem State.decoder_setChanOut_of_ne : (s.setChanOut c x o).decoder c' = s.decoder c' :=
  congrArg Chan.decoder (s.chan_setChanOut_of_ne x o hne)

theorem State.setDecoder_noResult_setChanOut (d : Decoder) :
    ((s.setChanOut c x o).setDecoder c' d).noResult = (s.setDecoder c' d).noResult.setChan c x := by
  simp only [State.setDecoder, s.chan_setChanOut_of_ne x o hne]
  exact congrArg State.noResult (s.setChan_comm x _ hne.symm)

theorem onDecoder_setChanOut (op : Op) {k k' : Channel → Decoder → State} (hk : ∀ d, k' c' d = (k c' d).setChan c x) :
    onDecoder c'.index op (s.setChanOut c x o) k' = (onDecoder c'.index op s k).setChan c x := by
  have hdec := State.decoder_setChanOut_of_ne (s := s) hne x o
  cases hd : s.decoder c' with
  | none =>
    rw [onDecoder_unclaimed hd, onDecoder_unclaimed (hdec.trans hd)]
    rfl
  | some d =>
    rw [onDecoder_claimed hd, onDecoder_claimed (hdec.trans hd)]
    exact hk d

theorem edgeEvent_setChanOut (e : EdgeEvent) :
    (s.setChanOut c x o).edgeEvent c' e = (s.edgeEvent c' e).setChan c x := by
  have hdec := State.decoder_setChanOut_of_ne (s := s) hne x o
  cases hd : s.decoder c' with
  | none =>
    rw [edgeEvent_unclaimed hd, edgeEvent_unclaimed (hdec.trans hd)]
    rfl
  | some d =>
    rw [edgeEvent_claimed hd, edgeEvent_claimed (hdec.trans hd)]
    exact congrArg (fun t : State => { t with started := true }) (State.setDecoder_noResult_setChanOut hne x o _)

theorem sample_setChanOut (t d : Bool) : (s.setChanOut c x o).sample c' t d = (s.sample c' t d).setChan c x := by
  have hsource (l : Line) : (s.setChanOut c x o).sourceEnabled c' l = s.sourceEnabled c' l :=
    congrArg Option.isSome (State.decoder_setChanOut_of_ne hne x o)
  simp only [State.sample, s.chan_setChanOut_of_ne x o hne, hsource]
  exact congrArg State.noResult (s.setChan_comm x _ hne.symm)

/-- An operation neither sees nor changes another channel or the port of the step before it (R85). -/
theorem exec_setChanOut {t : State} {j : Instr} (h : exec j s = .next t) (hj : j.ch = c'.index) :
    exec j (s.setChanOut c x o) = .next (t.setChan c x) := by
  cases j <;> obtain rfl := hj <;> cases h
  case construct =>
    have hclaimed : (s.setChanOut c x o).claimed c' = s.claimed c' :=
      congrArg Option.isSome (State.decoder_setChanOut_of_ne hne x o)
    refine congrArg _ (onChannel_setChanOut ?_)
    rw [hclaimed, State.setChanOut_started]
    split_ifs
    · rfl
    · rfl
    · exact State.setDecoder_noResult_setChanOut hne x o _
  case read | isrev => exact congrArg _ (onDecoder_setChanOut hne x o _ fun d => rfl)
  case write | setrev => exact congrArg _ (onDecoder_setChanOut hne x o _ fun d => State.setDecoder_noResult_setChanOut hne x o _)
  case trig | dir => exact congrArg _ (onChannel_setChanOut (edgeEvent_setChanOut hne x o _))
  case pins => exact congrArg _ (onChannel_setChanOut (sample_setChanOut hne x o _ _))

end

/-! A host access of a claimed channel. -/

/-- A host access of a claimed channel writes that channel and the port, and what it writes is settled by that channel (R66 to R70). -/
theorem exec_hostAccess {s : State} {c : Channel} {i : Instr} (hs : s.claimed c = true) (hi : i.ch = c.index)
    (hop : i.op ∈ [Op.read, .write, .isrev, .setrev]) :
    ∃ (x : Chan) (o : Output), ∀ t : State, t.chan c = s.chan c → exec i t = .next (t.setChanOut c x o) := by
  obtain ⟨d, hd⟩ := (s.claimed_iff c).1 hs
  have hdec {t : State} (ht : t.chan c = s.chan c) : t.decoder c = some d := (congrArg Chan.decoder ht).trans hd
  cases i with
  | construct | trig | dir | pins => simp [Instr.op] at hop
  | read ch =>
    obtain rfl : ch = c.index := hi
    exact ⟨_, _, fun t ht => by rw [exec_read_claimed (hdec ht), t.withResult_eq_setChanOut c, ht]⟩
  | isrev ch =>
    obtain rfl : ch = c.index := hi
    exact ⟨_, _, fun t ht => by rw [exec_isrev_claimed (hdec ht), t.withResult_eq_setChanOut c, ht]⟩
  | write ch n =>
    obtain rfl : ch = c.index := hi
    exact ⟨_, _, fun t ht => by rw [exec_write_claimed (hdec ht), t.setDecoder_noResult_eq_setChanOut c, ht]⟩
  | setrev ch b =>
    obtain rfl : ch = c.index := hi
    exact ⟨_, _, fun t ht => by rw [exec_setrev_claimed (hdec ht), t.setDecoder_noResult_eq_setChanOut c, ht]⟩

/-! One operation after another. -/

/-- Every operation answers a next state (R135). -/
theorem exec_answers (i : Instr) (s : State) : ∃ t, exec i s = .next t := by
  cases i <;> exact ⟨_, rfl⟩

theorem runAll_pair {s t u : State} {i j : Instr} (hi : exec i s = .next t) (hj : exec j t = .next u) :
    runAll [i, j] s = .next u := by
  simp only [runAll, hi, hj]

/-- R72(f): a host access of a claimed channel commutes with an operation of another channel, in all but the port. -/
theorem hostAccess_commutes {s : State} {c c' : Channel} {i j : Instr} (hs : s.claimed c = true) (hi : i.ch = c.index)
    (hop : i.op ∈ [Op.read, .write, .isrev, .setrev]) (hj : j.ch = c'.index) (hne : c' ≠ c) :
    ∃ t u, runAll [i, j] s = .next t ∧ runAll [j, i] s = .next u ∧ t.quiet = u.quiet := by
  obtain ⟨x, o, haccess⟩ := exec_hostAccess hs hi hop
  obtain ⟨t, ht⟩ := exec_answers j s
  have hchan : t.chan c = s.chan c := exec_chan_of_ne ht hj hne.symm
  exact ⟨t.setChan c x, t.setChanOut c x o, runAll_pair (haccess s rfl) (exec_setChanOut hne x o ht hj),
    runAll_pair ht (haccess t hchan), rfl⟩

/-- Settles O17: (a) to (e) follow each access's one update of the decoder, the second write of a channel overwriting the first; (f) is
`hostAccess_commutes`. -/
theorem hostAccessLaws : Obligations.HostAccessLaws := by
  intro s c hs
  obtain ⟨d, hd⟩ := (s.claimed_iff c).1 hs
  have hwritten (d' : Decoder) : (s.setDecoder c d').noResult.decoder c = some d' := s.decoder_setDecoder c d'
  refine ⟨fun n => ?writeRead, ?readRead, fun b => ?setrevIsrev, fun m n => ?writeWrite, fun n b => ?writeSetrev,
    fun i j c' hi hop hj hne => hostAccess_commutes hs hi hop hj hne⟩
  case writeRead => exact ⟨_, runAll_pair (exec_write_claimed hd n) (exec_read_claimed (hwritten _)), rfl⟩
  case readRead =>
    have hread : (s.withResult d.position).decoder c = some d := hd
    exact ⟨_, _, _, exec_read_claimed hd, exec_read_claimed hread, rfl, rfl⟩
  case setrevIsrev =>
    refine ⟨_, runAll_pair (exec_setrev_claimed hd b) (exec_isrev_claimed (hwritten _)), ?_⟩
    exact congrArg Output.result (zext32_eq_ite b)
  case writeWrite =>
    refine ⟨_, runAll_pair (exec_write_claimed hd m) (exec_write_claimed (hwritten _) n), ?_⟩
    rw [State.setDecoder_noResult_setDecoder, exec_write_claimed hd]
  case writeSetrev =>
    refine ⟨_, runAll_pair (exec_write_claimed hd n) (exec_setrev_claimed (hwritten _) b), ?_⟩
    rw [runAll_pair (exec_setrev_claimed hd b) (exec_write_claimed (hwritten _) n)]
    simp only [State.setDecoder_noResult_setDecoder]

end Sys2Proof.Machine
end

section
/-! SUPPORT. The ±1 as a signed integer (R79), and one edge event, or two of opposite predicates, on a claimed channel (R74, R76, R77). -/

namespace Sys2Proof.Machine

/-! The ±1 as a signed integer (R79). -/

theorem tick_eq_ite (b : Bool) (p : Word) :
    tick b p = if b = true then BitVec.ofInt 32 (p.toInt + 1) else BitVec.ofInt 32 (p.toInt - 1) := by
  cases b <;> rfl

/-- Wrapping changes no integer of the signed range (R9). -/
theorem wrap32_toInt {z : Int} (hlo : -2147483648 ≤ z) (hhi : z ≤ 2147483647) : (wrap32 z).toInt = z :=
  BitVec.toInt_ofInt_eq_self (by decide) hlo (Int.lt_add_one_of_le hhi)

theorem tick_true_toInt (p : Word) :
    (p.toInt ≠ 2147483647 → (tick true p).toInt = p.toInt + 1) ∧ (p.toInt = 2147483647 → (tick true p).toInt = -2147483648) := by
  have hlo : -2147483648 ≤ p.toInt := p.le_toInt
  have hhi : p.toInt < 2147483648 := p.toInt_lt
  refine ⟨fun h => wrap32_toInt (z := p.toInt + 1) (by omega) (by omega), fun h => ?_⟩
  rw [tick, signed, h]
  decide

theorem tick_false_toInt (p : Word) :
    (p.toInt ≠ -2147483648 → (tick false p).toInt = p.toInt - 1) ∧ (p.toInt = -2147483648 → (tick false p).toInt = 2147483647) := by
  have hlo : -2147483648 ≤ p.toInt := p.le_toInt
  have hhi : p.toInt < 2147483648 := p.toInt_lt
  refine ⟨fun h => wrap32_toInt (z := p.toInt - 1) (by omega) (by omega), fun h => ?_⟩
  rw [tick, signed, h]
  decide

/-! One edge event of a claimed channel (R74, R76). -/

/-- An edge event stays inside its channel (R85). -/
theorem sameOutside_edgeEvent (s : State) (c : Channel) (e : EdgeEvent) : SameOutside c s (s.edgeEvent c e) where
  others _ h := edgeEvent_chan_of_ne s e h
  inputs := edgeEvent_inputs s c e
  schedule := edgeEvent_schedule s c e

theorem edgeEvent_position {s : State} {c : Channel} {p : Word} {r : Bool} (h : s.decoder c = some ⟨p, r⟩) (e : EdgeEvent) :
    (s.edgeEvent c e).position c = some (tick (cw e.line e.T e.D r) p) :=
  congrArg (Option.map Decoder.position) (edgeEvent_decoder h e)

/-- The operation of an edge event on a claimed channel: its ±1, `started`, and nothing else (R74, R76). -/
theorem exec_edgeEvent_claimed {s : State} {c : Channel} {p : Word} {r : Bool} (hp : s.position c = some p)
    (hr : s.reversed c = some r) (e : EdgeEvent) :
    ∃ t, exec (e.instr c) s = .next t ∧
      t.position c = some (tick (cw e.line e.T e.D r) p) ∧ t.reversed c = some r ∧ t.claimed c = true ∧
      t.tPrev c = s.tPrev c ∧ t.dPrev c = s.dPrev c ∧ t.raised c = s.raised c ∧
      t.started = true ∧ t.fault = s.fault ∧ t.out = .none ∧ SameOutside c s t := by
  have hd : s.decoder c = some ⟨p, r⟩ := (s.decoder_eq_some_iff c _).2 ⟨hp, hr⟩
  have hc : s.claimed c = true := (s.claimed_iff c).2 ⟨_, hd⟩
  obtain ⟨hpos, hrev⟩ := (State.decoder_eq_some_iff _ c _).1 (edgeEvent_decoder hd e)
  obtain ⟨hstarted, hout, hfault⟩ := edgeEvent_block hc e
  exact ⟨_, exec_edgeEvent_instr c e s, hpos, hrev, (edgeEvent_claimed_eq s c c e).trans hc, edgeEvent_tPrev s c c e,
    edgeEvent_dPrev s c c e, edgeEvent_raised s c c e, hstarted, hfault, hout, sameOutside_edgeEvent s c e⟩

/-- Settles O19: TRIG is the edge event of the trigger line, whose predicate is `T XOR D XOR reversed`. -/
theorem trigCountsByItsPredicate : Obligations.TrigCountsByItsPredicate := by
  refine fun s c T D => ⟨fun p r hp hr => ?_, exec_unclaimed rfl (by simp [Instr.op])⟩
  obtain ⟨t, ht, hpos, hframe⟩ := exec_edgeEvent_claimed hp hr ⟨.trigger, T, D⟩
  exact ⟨t, ht, hpos.trans (congrArg some (tick_eq_ite _ p)), hframe⟩

/-- Settles O20: DIR is the edge event of the direction line, whose predicate is `(NOT T) XOR D XOR reversed`. -/
theorem dirCountsByItsPredicate : Obligations.DirCountsByItsPredicate := by
  refine fun s c T D => ⟨fun p r hp hr => ?_, exec_unclaimed rfl (by simp [Instr.op])⟩
  obtain ⟨t, ht, hpos, hframe⟩ := exec_edgeEvent_claimed hp hr ⟨.direction, T, D⟩
  exact ⟨t, ht, hpos.trans (congrArg some (tick_eq_ite _ p)), hframe⟩

/-- Settles O22: the counter ticks as the predicate says, and a tick is exact but at the end it runs into. -/
theorem counterIsExactButWrapsAtTheEnds : Obligations.CounterIsExactButWrapsAtTheEnds := by
  intro s c e p r hp hr
  obtain ⟨t, ht, hpos, -, -, -, -, -, -, hfault, hout, -⟩ := exec_edgeEvent_claimed hp hr e
  refine ⟨t, _, ht, hpos, hfault, hout, fun hcw => ?up, fun hcw => ?down⟩
  case up => rw [hcw]; exact tick_true_toInt p
  case down => rw [hcw]; exact tick_false_toInt p

/-! Two events of opposite predicates (R77). -/

/-- An event whose predicate is the opposite of the one's before takes its ±1 back. -/
theorem edgeEvent_cancel {s : State} {c : Channel} {p : Word} {r : Bool} (h : s.decoder c = some ⟨p, r⟩) {e e' : EdgeEvent}
    (hcw : cw e'.line e'.T e'.D r = !cw e.line e.T e.D r) : ((s.edgeEvent c e).edgeEvent c e').position c = some p := by
  rw [edgeEvent_position (edgeEvent_decoder h e) e', hcw, tick_tick_not]

theorem runAll_edgeEvent_pair (s : State) (c : Channel) (e e' : EdgeEvent) :
    runAll [e.instr c, e'.instr c] s = .next ((s.edgeEvent c e).edgeEvent c e') :=
  runAll_pair (exec_edgeEvent_instr c e s) (exec_edgeEvent_instr c e' _)

/-- Settles O21: with the same levels the predicate of the direction line is the opposite of the trigger line's (`cw_direction`). -/
theorem handlersAreOpposite : Obligations.HandlersAreOpposite := by
  intro s c T D p hp
  obtain ⟨⟨p, r⟩, hd, rfl⟩ := Option.map_eq_some_iff.1 hp
  refine ⟨⟨_, _, exec_edgeEvent_instr c ⟨.trigger, T, D⟩ s, exec_edgeEvent_instr c ⟨.direction, T, D⟩ s, ?opposite⟩,
    ⟨_, runAll_edgeEvent_pair s c ⟨.trigger, T, D⟩ ⟨.direction, T, D⟩, edgeEvent_cancel hd (cw_direction T D r)⟩,
    ⟨_, runAll_edgeEvent_pair s c ⟨.direction, T, D⟩ ⟨.trigger, T, D⟩, edgeEvent_cancel hd ?back⟩⟩
  case opposite =>
    rw [edgeEvent_position hd, edgeEvent_position hd, cw_direction, tick_eq_add, tick_eq_add]
    cases cw .trigger T D r with
    | true => exact .inl ⟨rfl, rfl⟩
    | false => exact .inr ⟨rfl, rfl⟩
  case back => rw [cw_direction, Bool.not_not]

end Sys2Proof.Machine
end

section
/-! SUPPORT. A sequence of edge events of a claimed channel: the net change it makes, and that change under the opposite flag (R80). -/

namespace Sys2Proof.Machine

/-- What a sequence of edge events adds to the counter of a channel with this flag, before wrapping. -/
def netDelta (reversed : Bool) (es : List EdgeEvent) : Int := (es.map fun e => delta (cw e.line e.T e.D reversed)).sum

@[simp] theorem netDelta_nil (r : Bool) : netDelta r [] = 0 := rfl

@[simp] theorem netDelta_cons (r : Bool) (e : EdgeEvent) (es : List EdgeEvent) :
    netDelta r (e :: es) = delta (cw e.line e.T e.D r) + netDelta r es := rfl

/-! The ±1 and the wrap as additive maps. -/

theorem tick_eq_add_delta (b : Bool) (p : Word) : tick b p = p + wrap32 (delta b) := by
  simp [tick, signed, wrap32, BitVec.ofInt_add]

theorem delta_not (b : Bool) : delta (!b) = -delta b := by
  cases b <;> rfl

theorem wrap32_neg (z : Int) : wrap32 (-z) = -wrap32 z := BitVec.ofInt_neg

theorem wrap32_add (y z : Int) : wrap32 (y + z) = wrap32 y + wrap32 z := BitVec.ofInt_add y z

/-! The run of a sequence. -/

theorem netDelta_not (r : Bool) (es : List EdgeEvent) : netDelta (!r) es = -netDelta r es := by
  induction es with
  | nil => rfl
  | cons e es ih =>
    rw [netDelta_cons, netDelta_cons, ih, cw_reversed, delta_not, Int.neg_add]

/-- A run of edge events of a claimed channel goes on to its end, adds their net change and leaves the flag. -/
theorem runAll_edgeEvents {s : State} {c : Channel} {p : Word} {r : Bool} (h : s.decoder c = some ⟨p, r⟩) (es : List EdgeEvent) :
    ∃ t, runAll (es.map (EdgeEvent.instr c)) s = .next t ∧ t.decoder c = some ⟨p + wrap32 (netDelta r es), r⟩ := by
  induction es generalizing s p with
  | nil => exact ⟨s, rfl, by simpa [wrap32] using h⟩
  | cons e es ih =>
    obtain ⟨t, ht, hd⟩ := ih (edgeEvent_decoder h e)
    refine ⟨t, by simpa only [List.map_cons, runAll, exec_edgeEvent_instr] using ht, ?_⟩
    rw [hd, tick_eq_add_delta, netDelta_cons, wrap32_add, BitVec.add_assoc]

/-- Settles O23: the opposite flag negates each event's change (`cw_reversed`), hence the net change of any sequence. -/
theorem reversalNegatesEveryDelta : Obligations.ReversalNegatesEveryDelta := by
  intro c es e s s' p0 p0' r hp hr hp' hr'
  obtain ⟨t, ht, hd⟩ := runAll_edgeEvents ((s.decoder_eq_some_iff c ⟨p0, r⟩).2 ⟨hp, hr⟩) es
  obtain ⟨t', ht', hd'⟩ := runAll_edgeEvents ((s'.decoder_eq_some_iff c ⟨p0', !r⟩).2 ⟨hp', hr'⟩) es
  refine ⟨t, t', _, _, _, _, _, _, ht, ht', exec_edgeEvent_instr c e t, exec_edgeEvent_instr c e t',
    ((t.decoder_eq_some_iff c _).1 hd).1, ((t'.decoder_eq_some_iff c _).1 hd').1, edgeEvent_position hd e,
    edgeEvent_position hd' e, ?event, ?sequence⟩
  case event =>
    simp only [tick_eq_add_delta, cw_reversed, delta_not, wrap32_neg, add_sub_cancel_left, neg_neg]
  case sequence =>
    simp only [netDelta_not, wrap32_neg, add_sub_cancel_left, sub_add_cancel_left, neg_neg]

end Sys2Proof.Machine
end

section
/-! SUPPORT. What an operation makes of its own channel and of the port, settled by that channel, the placement and `started` (R85). -/

namespace Sys2Proof.Machine

/-- Two states agree on channel `c` and on the port of the last step: all that an operation of `c` shows of itself (R85). -/
abbrev SameAt (c : Channel) (s s' : State) : Prop := s.chan c = s'.chan c ∧ s.out = s'.out

section
variable {s s' : State} {c : Channel} (hchan : s.chan c = s'.chan c)
include hchan

theorem State.decoder_eq_of_chan : s.decoder c = s'.decoder c := congrArg Chan.decoder hchan

theorem sameAt_raise (f : Fault) : SameAt c (s.raise f) (s'.raise f) := ⟨hchan, rfl⟩

theorem sameAt_setDecoder_noResult (d : Decoder) : SameAt c (s.setDecoder c d).noResult (s'.setDecoder c d).noResult :=
  ⟨by simp only [State.chan_noResult, State.chan_setDecoder, hchan], rfl⟩

theorem sameAt_onDecoder (op : Op) {k k' : Channel → Decoder → State} (hk : ∀ d, SameAt c (k c d) (k' c d)) :
    SameAt c (onDecoder c.index op s k) (onDecoder c.index op s' k') := by
  have hdec := State.decoder_eq_of_chan hchan
  cases hd : s'.decoder c with
  | none =>
    rw [onDecoder_unclaimed hd, onDecoder_unclaimed (hdec.trans hd)]
    exact sameAt_raise hchan _
  | some d =>
    rw [onDecoder_claimed hd, onDecoder_claimed (hdec.trans hd)]
    exact hk d

theorem sameAt_edgeEvent (e : EdgeEvent) : SameAt c (s.edgeEvent c e) (s'.edgeEvent c e) := by
  have hdec := State.decoder_eq_of_chan hchan
  cases hd : s'.decoder c with
  | none =>
    rw [edgeEvent_unclaimed hd, edgeEvent_unclaimed (hdec.trans hd)]
    exact sameAt_raise hchan _
  | some d =>
    rw [edgeEvent_claimed hd, edgeEvent_claimed (hdec.trans hd)]
    exact sameAt_setDecoder_noResult hchan _

theorem sameAt_sample (hschedule : s.schedule = s'.schedule) (t d : Bool) : SameAt c (s.sample c t d) (s'.sample c t d) :=
  ⟨by simp only [sample_chan, State.raised, State.tPrev, State.dPrev, State.claimed, State.decoder, hchan, hschedule], rfl⟩

/-- What an operation makes of its channel and of the port depends on that channel, for PINS on the placement too, and for CONSTRUCT
on `started` (R85). -/
theorem sameAt_exec {t t' : State} {i : Instr} (hi : i.ch = c.index) (hschedule : i.op = .pins → s.schedule = s'.schedule)
    (hstarted : i.op = .construct → s.started = s'.started) (h : exec i s = .next t) (h' : exec i s' = .next t') :
    SameAt c t t' := by
  cases i <;> obtain rfl := hi <;> cases h <;> cases h'
  case construct =>
    have hclaimed : s.claimed c = s'.claimed c := congrArg Option.isSome (State.decoder_eq_of_chan hchan)
    rw [onChannel_index, onChannel_index, hclaimed, hstarted rfl]
    split_ifs
    · exact sameAt_raise hchan _
    · exact sameAt_raise hchan _
    · exact sameAt_setDecoder_noResult hchan _
  case read | isrev => exact sameAt_onDecoder hchan _ fun d => ⟨hchan, rfl⟩
  case write | setrev => exact sameAt_onDecoder hchan _ fun d => sameAt_setDecoder_noResult hchan _
  case trig | dir =>
    rw [onChannel_index, onChannel_index]
    exact sameAt_edgeEvent hchan _
  case pins =>
    rw [onChannel_index, onChannel_index]
    exact sameAt_sample hchan (hschedule rfl) _ _

end

/-- An operation leaves every channel it does not name as it was, one on a number above 3 all of them (R85, R100). -/
theorem exec_chan_of_index_ne {s t : State} {i : Instr} {c : Channel} (h : exec i s = .next t) (hne : i.ch ≠ c.index) :
    t.chan c = s.chan c := by
  rcases exec_cases h with ⟨f, -, -, rfl⟩ | ⟨c', hi, -⟩
  · exact s.chan_raise f c
  · exact exec_chan_of_ne h hi fun hc => hne (hc ▸ hi)

/-- Settles O39: no effect on another channel (`exec_chan_of_index_ne`), and no dependence on one (`sameAt_exec`). -/
theorem channelsAreIsolated : Obligations.ChannelsAreIsolated :=
  ⟨fun _ _ _ _ h hne => exec_chan_of_index_ne h hne,
    fun _ _ _ _ _ _ hi hchan hschedule hstarted h h' => sameAt_exec hchan hi hschedule hstarted h h'⟩

end Sys2Proof.Machine
end

section
/-! SUPPORT. Decoding what was encoded (R54), and the two kinds of step of a run whose instants each raise at most one event: an operation
presented while no event is still to come, and the step of the one event that is (R7, R89, R135). -/

namespace Sys2Proof

/-- Decoding gives back the well-formed instruction that was encoded (R54). -/
theorem decode_encode {i : Instr} (h : i.wf = true) : decode (encode i) = .ok i := by
  have hch : (BitVec.ofNat 2 i.ch).toNat = i.ch := Laws.EncodedFields.ch_toNat h
  refine decode_eq_ok.2 ⟨?_, ?_⟩ <;> rw [encode, Fields.ofWord_toWord]
  · exact i.fields_violation
  · cases i <;> simp only [Instr.ch, Instr.fields, Fields.instr, Op.ofCode_code] at hch ⊢ <;> rw [hch]

theorem Instr.wf_of_index {i : Instr} {c : Channel} (h : i.ch = c.index) : i.wf = true :=
  decide_eq_true (h ▸ c.index_lt)

end Sys2Proof

namespace Sys2Proof.Machine

/-! One step. -/

/-- Past the command port every descriptor of an instruction is accepted (R112). -/
theorem boundary_direct_encode {i : Instr} (h : i.wf = true) : boundary .direct (encode i) = .ok i := by
  simp [boundary, decode_encode h, Port.accepts]

/-- Taking an operation while no event is raised leaves none raised. -/
theorem take_settled {s : State} (hs : s.settled) (rest : List Input) (pl : Schedule) : (s.take rest pl).settled := fun c => by
  rw [State.raised_take, State.raised_age_of_nil (hs c)]

/-- With no event raised, what is presented is run (R7). -/
theorem step_presents {s : State} {i : Instr} {pl : Schedule} {rest : List Input} (hs : s.settled) (hwf : i.wf = true)
    (hi : s.inputs = presents i pl :: rest) : step s = exec i (s.take rest pl) := by
  unfold step
  simp only [hi, turn_of_settled hs, boundary_direct_encode hwf]

theorem step_pins {s : State} {c : Channel} {t d : Bool} {pl : Schedule} {rest : List Input} (hs : s.settled)
    (hi : s.inputs = presents (.pins c.index t d) pl :: rest) : step s = .next ((s.take rest pl).sample c t d) :=
  (step_presents hs (Instr.wf_of_index rfl) hi).trans (exec_pins_index c t d _)

/-- A raised event that is due, before any other due, has the next step unless reset comes (R89, R135). -/
theorem step_eventStep {s : State} {c : Channel} (hr : noReset s.inputs) (hdue : s.isDue c = true)
    (hfirst : ∀ c' : Channel, c'.index < c.index → s.isDue c' = false) : step s = .next (s.eventStep c) := by
  unfold step
  split
  · rename_i rest hi; exact absurd hi (hr rest)
  · rw [turn_of_due hdue hfirst]
  · rw [turn_of_due hdue hfirst]

theorem runSteps_succ {s t : State} (h : step s = .next t) (n : Nat) : runSteps (n + 1) s = runSteps n t := by
  simp only [runSteps, h]

/-! The sampling instant. -/

theorem sameOutside_sample (s : State) (c : Channel) (t d : Bool) : SameOutside c s (s.sample c t d) where
  others _ h := sample_chan_of_ne s t d h
  inputs := rfl
  schedule := rfl

/-- A sampling instant that raises nothing only latches (R90, R91). -/
theorem sample_chan_of_raises_nothing {s : State} {c : Channel} {t d : Bool} (h : (s.sample c t d).raised c = s.raised c) :
    (s.sample c t d).chan c = { s.chan c with tPrev := some t, dPrev := some d } := by
  rw [State.raised, sample_chan] at h
  rw [sample_chan]
  exact congrArg (Chan.mk (s.chan c).decoder (some t) (some d)) h

theorem exec_pins_only_latches {s : State} {c : Channel} {t d : Bool} (h : (s.sample c t d).raised c = s.raised c) :
    ∃ u, exec (.pins c.index t d) s = .next u ∧ u.chan c = { s.chan c with tPrev := some t, dPrev := some d } ∧
      u.started = s.started ∧ u.fault = s.fault ∧ u.out = .none ∧ SameOutside c s u :=
  ⟨_, exec_pins_index c t d s, sample_chan_of_raises_nothing h, rfl, rfl, rfl, sameOutside_sample s c t d⟩

/-- An instant of one channel raises no event of another. -/
theorem sample_raised_of_ne (s : State) {c c' : Channel} (t d : Bool) (hc : c' ≠ c) :
    (s.sample c t d).raised c' = s.raised c' :=
  congrArg Chan.raised (sample_chan_of_ne s t d hc)

theorem sample_settled {s : State} {c : Channel} {t d : Bool} (hs : s.settled) (h : (s.sample c t d).raised c = s.raised c) :
    (s.sample c t d).settled := fun c' => by
  by_cases hc : c' = c
  · rw [hc, h, hs c]
  · rw [sample_raised_of_ne s t d hc, hs c']

/-! The step of a raised event (R89, R135). -/

@[simp] theorem eventStep_inputs (s : State) (c : Channel) : (s.eventStep c).inputs = s.inputs := by
  unfold State.eventStep State.performRaised
  split
  · rfl
  · exact edgeEvent_inputs _ _ _

/-- The step of a claimed channel's oldest raised event ticks its counter. -/
theorem eventStep_decoder {s : State} {c : Channel} {x : Raised} {es : List Raised} {p : Word} {r : Bool}
    (hx : s.raised c = x :: es) (hd : s.decoder c = some ⟨p, r⟩) :
    (s.eventStep c).decoder c = some ⟨tick (cw x.event.line x.event.T x.event.D r) p, r⟩ := by
  rw [eventStep_cons hx]
  exact edgeEvent_decoder (by simpa [State.decoder] using hd) x.event

theorem eventStep_started {s : State} {c : Channel} (hr : s.hasRaised c = true) (hc : s.claimed c = true) :
    (s.eventStep c).started = true := by
  obtain ⟨x, es, hx⟩ := hasRaised_eq_true.1 hr
  rw [eventStep_cons hx]
  exact (edgeEvent_block (by rw [State.claimed_setRaised, State.claimed_age, hc]) x.event).1

/-- After the step of the one event that was still to come, none is. -/
theorem eventStep_settled {s : State} {c : Channel} {x : Raised} (hx : s.raised c = [x]) (hothers : ∀ c', c' ≠ c → s.raised c' = []) :
    (s.eventStep c).settled := fun c' => by
  rw [State.eventStep, performRaised_raised]
  split_ifs with hc
  · rw [State.raised_age_cons hx]; rfl
  · exact State.raised_age_of_nil (hothers c' hc)

/-- The one event that is still to come, and due, is the next step unless reset comes: its tick, and nothing is left to come. -/
theorem step_onlyEvent {s : State} {c : Channel} {e : EdgeEvent} {p : Word} {r : Bool} (hx : s.raised c = [⟨e, 0⟩])
    (hothers : ∀ c', c' ≠ c → s.raised c' = []) (hd : s.decoder c = some ⟨p, r⟩) (hr : noReset s.inputs) :
    ∃ u, step s = .next u ∧ u.inputs = s.inputs ∧ u.settled ∧ u.decoder c = some ⟨tick (cw e.line e.T e.D r) p, r⟩ ∧
      u.started = true := by
  have hfirst (c' : Channel) (hlt : c'.index < c.index) : s.isDue c' = false :=
    isDue_of_nil (hothers c' fun hc => Nat.lt_irrefl _ (hc ▸ hlt))
  exact ⟨_, step_eventStep hr (isDue_eq_true.2 ⟨_, _, hx, rfl⟩) hfirst, eventStep_inputs s c, eventStep_settled hx hothers,
    eventStep_decoder hx hd, eventStep_started (hasRaised_eq_true.2 ⟨_, _, hx⟩) ((s.claimed_iff c).2 ⟨_, hd⟩)⟩

/-- A PINS on a claimed channel that raises one event, no event being still to come before it: two steps, the second the event. -/
theorem runSteps_pins_oneEvent {s : State} {c : Channel} {t d : Bool} {pl : Schedule} {rest : List Input} {p : Word} {r : Bool}
    {e : EdgeEvent} (hs : s.settled) (hd : s.decoder c = some ⟨p, r⟩) (hr : noReset rest)
    (hi : s.inputs = presents (.pins c.index t d) pl :: rest)
    (he : raisedEvents pl (decide (s.tPrev c = some (!t))) (decide (s.dPrev c = some (!d))) t d = [⟨e, 0⟩]) :
    ∃ u, runSteps 2 s = .next u ∧ u.inputs = rest ∧ u.settled ∧ u.decoder c = some ⟨tick (cw e.line e.T e.D r) p, r⟩ ∧
      u.started = true := by
  have htake := take_settled hs rest pl
  have hdec : (s.take rest pl).decoder c = some ⟨p, r⟩ := (s.decoder_take rest pl c).trans hd
  have hraised : ((s.take rest pl).sample c t d).raised c = [⟨e, 0⟩] := by
    rw [sample_raised ((State.claimed_iff _ c).2 ⟨_, hdec⟩), htake c, State.tPrev_take, State.dPrev_take, State.take_schedule, he,
      List.nil_append]
  obtain ⟨u, hevent, hu⟩ := step_onlyEvent hraised (fun c' hc => (sample_raised_of_ne _ t d hc).trans (htake c'))
    ((sample_decoder _ c c t d).trans hdec) hr
  exact ⟨u, by rw [runSteps_succ (step_pins hs hi), runSteps_succ hevent, runSteps], hu⟩

end Sys2Proof.Machine
end

section
/-! SUPPORT. A sampling instant before construction, the construction, and what the next sampling instant finds (R90, R91). -/

namespace Sys2Proof.Machine

/-- What the first sampling instant after construction finds: the levels latched before it, the counter at 0, nothing delivered yet. -/
structure ConstructedAfterSample (c : Channel) (t d : Bool) (s : State) : Prop where
  settled : s.settled
  decoder : s.decoder c = some ⟨0, false⟩
  tPrev : s.tPrev c = some t
  dPrev : s.dPrev c = some d
  started : s.started = false

/-- CONSTRUCT of an unclaimed channel whose levels are latched, no event being delivered before or still to come. -/
theorem step_construct_after_sample {s : State} {c : Channel} {t d : Bool} {pl : Schedule} {rest : List Input}
    (hc : s.claimed c = false) (ht : s.tPrev c = some t) (hd : s.dPrev c = some d) (hstarted : s.started = false) (hs : s.settled)
    (hi : s.inputs = presents (.construct c.index) pl :: rest) :
    ∃ u, step s = .next u ∧ u.inputs = rest ∧ ConstructedAfterSample c t d u := by
  have hconstruct := exec_construct_unclaimed ((s.claimed_take rest pl c).trans hc) hstarted
  refine ⟨_, (step_presents hs (Instr.wf_of_index rfl) hi).trans hconstruct, rfl, ?_⟩
  exact {
    settled := fun c' => by rw [State.raised_noResult, State.raised_setDecoder, take_settled hs rest pl c']
    decoder := by rw [State.decoder_noResult, State.decoder_setDecoder]
    tPrev := by rw [State.tPrev_noResult, State.tPrev_setDecoder, State.tPrev_take, ht]
    dPrev := by rw [State.dPrev_noResult, State.dPrev_setDecoder, State.dPrev_take, hd]
    started := hstarted }

/-- PINS on an unclaimed channel, then CONSTRUCT of it, no event being delivered before: two steps that raise nothing (R91). -/
theorem runSteps_pins_construct {s : State} {c : Channel} {t d : Bool} {x y : Schedule} {rest : List Input}
    (hc : s.claimed c = false) (hstarted : s.started = false) (hs : s.settled)
    (hi : s.inputs = presents (.pins c.index t d) x :: presents (.construct c.index) y :: rest) :
    ∃ u, (∀ n, runSteps (n + 2) s = runSteps n u) ∧ u.inputs = rest ∧ ConstructedAfterSample c t d u := by
  have hunclaimed : (s.take (presents (.construct c.index) y :: rest) x).claimed c = false := (s.claimed_take _ x c).trans hc
  have hraised := sample_raises_nothing (t := t) (d := d) (.inl hunclaimed)
  have hchan := sample_chan_of_raises_nothing hraised
  obtain ⟨u, hconstruct, hu⟩ := step_construct_after_sample (by rw [State.claimed, sample_decoder]; exact hunclaimed)
    (congrArg Chan.tPrev hchan) (congrArg Chan.dPrev hchan) hstarted (sample_settled (take_settled hs _ x) hraised) rfl
  exact ⟨u, fun n => by rw [runSteps_succ (step_pins hs hi), runSteps_succ hconstruct], hu⟩

section
variable {s : State} {c : Channel} {t d : Bool} (h : ConstructedAfterSample c t d s) {z : Schedule} {rest : List Input}
include h

/-- The same levels again raise nothing: what changed before construction is not remembered (R91). -/
theorem ConstructedAfterSample.sameLevels (hi : s.inputs = presents (.pins c.index t d) z :: rest) :
    ∃ u, runSteps 1 s = .next u ∧ u.inputs = rest ∧ u.settled ∧ u.position c = some 0 ∧ u.started = false := by
  have hlevels : (s.take rest z).tPrev c ≠ some (!t) ∧ (s.take rest z).dPrev c ≠ some (!d) := by simp [h.tPrev, h.dPrev]
  refine ⟨_, by rw [runSteps_succ (step_pins h.settled hi), runSteps], rfl,
    sample_settled (take_settled h.settled rest z) (sample_raises_nothing (.inr hlevels)), ?_, h.started⟩
  rw [State.position, sample_decoder, State.decoder_take, h.decoder]
  rfl

/-- One line changed raises that line's event, which counts one tick (R91). -/
theorem ConstructedAfterSample.oneLine {a b : Bool} {l : Line} (hr : noReset rest)
    (hi : s.inputs = presents (.pins c.index a b) z :: rest)
    (he : raisedEvents z (decide (t = !a)) (decide (d = !b)) a b = [⟨⟨l, a, b⟩, 0⟩]) :
    ∃ u, runSteps 2 s = .next u ∧ u.inputs = rest ∧ u.settled ∧ u.position c = some (tick (cw l a b false) 0) ∧
      u.started = true := by
  obtain ⟨u, hrun, hin, hsettled, hd, hstarted⟩ := runSteps_pins_oneEvent (e := ⟨l, a, b⟩) h.settled h.decoder hr hi
    (by simpa [h.tPrev, h.dPrev] using he)
  exact ⟨u, hrun, hin, hsettled, congrArg (Option.map Decoder.position) hd, hstarted⟩

end

/-- Settles O30: an instant that raises nothing only latches; after one on an unclaimed channel and construction, the next compares with
the levels latched before construction. -/
theorem firstSamplesAndUnclaimedLinesRaiseNothing : Obligations.FirstSamplesAndUnclaimedLinesRaiseNothing := by
  refine fun s c t d => ⟨fun ht hd => ?first, fun hc => ?unclaimed, fun hc hstarted hs a b x y z rest hr hi => ?third⟩
  case first => exact exec_pins_only_latches (sample_raises_nothing (.inr (by simp [ht, hd])))
  case unclaimed => exact exec_pins_only_latches (sample_raises_nothing (.inl hc))
  case third =>
    obtain ⟨u, hrun, hin, hu⟩ := runSteps_pins_construct hc hstarted hs hi
    rw [hrun 1, hrun 2]
    refine ⟨?same, ?trigger, ?direction⟩
    case same =>
      rintro rfl rfl
      exact hu.sameLevels hin
    case trigger =>
      rintro rfl rfl
      simpa [cw, cwTrig, tick_eq_add] using hu.oneLine (l := .trigger) hr hin (by simp [raisedEvents])
    case direction =>
      rintro rfl rfl
      simpa [cw, cwDir, tick_eq_add] using hu.oneLine (l := .direction) hr hin (by simp [raisedEvents])

end Sys2Proof.Machine
end

section
/-! SUPPORT. What a fault changes (R97), and which operations raise `FAULT_UNCLAIMED` (R98) and `FAULT_BAD_CHANNEL` (R100). -/

namespace Sys2Proof

theorem Fields.instr_ch (f : Fields) : f.instr.ch = f.ch.toNat := by
  unfold Fields.instr
  cases Op.ofCode f.op <;> rfl

/-- Every descriptor spells a channel that exists (R53). -/
theorem decode_ch {w : Descriptor} {i : Instr} (h : decode w = .ok i) : ∃ c : Channel, i.ch = c.index := by
  obtain ⟨-, rfl⟩ := decode_eq_ok.1 h
  refine (Channel.number_cases _).resolve_right (Nat.not_le.2 ?_)
  rw [Fields.instr_ch]
  exact (Fields.ofWord w).ch.isLt

end Sys2Proof

namespace Sys2Proof.Machine

/-! What a fault changes (R97). -/

/-- An operation raises a fault, which is all it does, or puts no fault on the ports and leaves the record (R97). -/
theorem exec_raise_or_no_fault {s t : State} {i : Instr} (h : exec i s = .next t) :
    (∃ f, t = s.raise f) ∨ ((∀ f, t.out ≠ .fault f) ∧ t.fault = s.fault) := by
  rcases exec_cases h with ⟨f, -, -, rfl⟩ | ⟨c, -, ⟨-, w, rfl⟩ | ⟨-, d, rfl⟩ | ⟨hc, e, -, rfl⟩ | ⟨x, y, -, rfl⟩⟩
  · exact .inl ⟨f, rfl⟩
  · exact .inr ⟨by simp, s.withResult_fault w⟩
  · exact .inr ⟨by simp, rfl⟩
  · obtain ⟨-, hout, hfault⟩ := edgeEvent_block hc e
    exact .inr ⟨by simp [hout], hfault⟩
  · exact .inr ⟨by simp, sample_fault s c x y⟩

/-- Settles O35: an operation does nothing but raise, or raises nothing (`exec_raise_or_no_fault`), and the record is among what every
step but reset keeps (`sticky_step`). -/
theorem faultsChangeOnlyTheRecord : Obligations.FaultsChangeOnlyTheRecord := by
  refine ⟨fun s t i h => ?_, fun s t f hf hreset h => (sticky_step h hreset).fault_kept f hf⟩
  rcases exec_raise_or_no_fault h with ⟨f, rfl⟩ | ⟨hout, hfault⟩
  · refine ⟨fun f' hf' => ?_, fun hnone => absurd rfl (hnone f)⟩
    obtain rfl : f = f' := Output.fault.inj hf'
    rfl
  · exact ⟨fun f hf => absurd hf (hout f), fun _ => hfault⟩

/-! `FAULT_UNCLAIMED` (R98). -/

/-- Settles O36: the six operations ask for a decoder (`exec_unclaimed`), and PINS is a sampling instant, which raises no fault. -/
theorem unclaimedChannelFaults : Obligations.UnclaimedChannelFaults :=
  ⟨fun _ _ _ hi hop hc => exec_unclaimed hi hop hc,
    fun s c t d => ⟨_, exec_pins_index c t d s, sample_fault s c t d, sample_out s c t d⟩⟩

/-! `FAULT_BAD_CHANNEL` (R100). -/

/-- Every operation checks its channel number before anything else (R100, R107c). -/
theorem exec_of_ge {i : Instr} (h : 4 ≤ i.ch) (s : State) : exec i s = .next (s.raise (.badChannel i.ch i.op)) := by
  cases i with
  | construct | trig | dir | pins => exact congrArg _ (onChannel_of_ge h _ s _)
  | read | write | isrev | setrev => exact congrArg _ (onDecoder_of_ge h _ s _)

/-- The step that ended in this state did not raise `FAULT_BAD_CHANNEL`. -/
abbrev State.NoBadChannel (t : State) : Prop := ∀ n op, t.out ≠ .fault (.badChannel n op)

theorem noBadChannel_edgeEvent (s : State) (c : Channel) (e : EdgeEvent) : (s.edgeEvent c e).NoBadChannel := by
  cases hd : s.decoder c with
  | none => rw [edgeEvent_unclaimed hd]; simp [State.NoBadChannel]
  | some d => rw [edgeEvent_claimed hd]; simp [State.NoBadChannel]

section
variable {s : State} {ch : Nat} {c : Channel} (hch : ch = c.index)
include hch

theorem noBadChannel_onChannel (op : Op) {k : Channel → State} (hk : (k c).NoBadChannel) :
    (onChannel ch op s k).NoBadChannel := by
  rwa [hch, onChannel_index]

theorem noBadChannel_onDecoder (op : Op) {k : Channel → Decoder → State} (hk : ∀ d, (k c d).NoBadChannel) :
    (onDecoder ch op s k).NoBadChannel := by
  cases hd : s.decoder c with
  | none => rw [hch, onDecoder_unclaimed hd]; simp [State.NoBadChannel]
  | some d => rw [hch, onDecoder_claimed hd]; exact hk d

end

/-- An operation on a channel that exists does not raise `FAULT_BAD_CHANNEL`. -/
theorem noBadChannel_exec {s t : State} {i : Instr} {c : Channel} (hi : i.ch = c.index) (h : exec i s = .next t) :
    t.NoBadChannel := by
  cases i <;> obtain rfl := Host.Outcome.next.inj h
  case construct => exact noBadChannel_onChannel hi _ (by split_ifs <;> simp [State.NoBadChannel])
  case trig | dir => exact noBadChannel_onChannel hi _ (noBadChannel_edgeEvent s c _)
  case pins => exact noBadChannel_onChannel hi _ (by simp [State.NoBadChannel])
  case read | write | isrev | setrev => exact noBadChannel_onDecoder hi _ fun d => by simp [State.NoBadChannel]

/-- Settles O37: the channel number is checked first (`exec_of_ge`); and a step is reset, the edge event of a channel that exists, or an
operation that a descriptor spells, whose channel exists (`decode_ch`). -/
theorem badChannelFaultsAndIsNeverStepped : Obligations.BadChannelFaultsAndIsNeverStepped := by
  refine ⟨fun s i h => exec_of_ge h s, fun s t h => ?_⟩
  rcases step_cases h with ⟨rest, -, rfl⟩ | ⟨-, c, hc, rfl⟩ | ⟨_, _, _, _, i, -, -, -, hdecode, hexec⟩
  · simp
  · obtain ⟨r, rest, hr⟩ := hasRaised_eq_true.1 hc
    rw [eventStep_cons hr]
    exact noBadChannel_edgeEvent _ c r.event
  · obtain ⟨c, hi⟩ := decode_ch hdecode
    exact noBadChannel_exec hi hexec

end Sys2Proof.Machine
end

section
/-! SUPPORT. A reset step restarts the block, whatever it held (R117, R119). -/

namespace Sys2Proof.Machine

/-- The reset line comes before every raised event and every operation: the step restarts the block. -/
theorem step_of_rst {s : State} {rest : List Input} (h : s.inputs = .rst :: rest) : step s = .next (State.restart rest) := by
  unfold step
  rw [h]

/-- Settles O9: a reset step restarts the block (`step_of_rst`), and `State.restart` takes nothing of the state before it but the inputs
still to come. -/
theorem resetDiscardsEverything : Obligations.ResetDiscardsEverything :=
  fun _ _ h => step_of_rst h

end Sys2Proof.Machine
end

section
/-! SUPPORT. Descriptors and their valid fields: encoding what was decoded, and counting (R54). -/

namespace Sys2Proof

/-- Settles O2: the fields of an instruction violate nothing and spell it, its channel number fitting in two bits (`decode_encode`). -/
theorem decodeOfEncodeIsTheInstruction : Obligations.DecodeOfEncodeIsTheInstruction :=
  fun _ h => decode_encode h

/-! Encoding what was decoded. -/

/-- Fields without a violation are those of the instruction they spell: what the instruction does not name is 0 (R52). -/
theorem Fields.fields_instr {f : Fields} (h : f.violation = none) : f.instr.fields = f := by
  obtain ⟨code, ch, a, b, z, imm⟩ := f
  obtain ⟨ha, hb, hz, himm⟩ := Fields.violation_eq_none.1 h
  unfold Fields.instr
  have hcode := Op.code_ofCode code
  cases hop : Op.ofCode code <;>
    simp_all [Instr.fields, Op.usesA, Op.usesB, Op.usesImm]

/-- Settles O3: a word that decodes has fields without a violation, which are those of its instruction (`Fields.fields_instr`), and
names a channel (`decode_ch`). -/
theorem encodeOfDecodeIsTheWord : Obligations.EncodeOfDecodeIsTheWord := by
  intro w i h
  obtain ⟨c, hc⟩ := decode_ch h
  obtain ⟨hviolation, rfl⟩ := decode_eq_ok.1 h
  exact ⟨Instr.wf_of_index hc, by rw [encode, Fields.fields_instr hviolation, Fields.toWord_ofWord]⟩

/-! Counting. -/

/-- A word decodes to an instruction of this operation exactly when it has the operation's code and no violation. -/
theorem decode_op_iff {w : Descriptor} {op : Op} :
    (∃ i, decode w = .ok i ∧ i.op = op) ↔ (Fields.ofWord w).violation = none ∧ Op.ofCode (Fields.ofWord w).op = op := by
  constructor
  · rintro ⟨i, hi, rfl⟩
    obtain ⟨hviolation, rfl⟩ := decode_eq_ok.1 hi
    exact ⟨hviolation, (Fields.instr_op _).symm⟩
  · exact fun ⟨hviolation, hop⟩ => ⟨_, decode_eq_ok.2 ⟨hviolation, rfl⟩, (Fields.instr_op _).trans hop⟩

/-- A descriptor is its fields (R46). -/
def descriptorEquivFields : Descriptor ≃ Fields where
  toFun := Fields.ofWord
  invFun := Fields.toWord
  left_inv := Fields.toWord_ofWord
  right_inv := Fields.ofWord_toWord

/-- What a valid descriptor of an operation is free in: its channel, and each operand that the operation has (R48, R52). -/
abbrev Op.FreeFields (op : Op) : Type :=
  BitVec 2 × { a : Bool // (a && !op.usesA) = false } × { b : Bool // (b && !op.usesB) = false } ×
    { imm : Word // imm = 0 ∨ op.usesImm = true }

/-- The valid fields of an operation are its code, `z` 0, and its free fields. -/
def validFieldsEquivFree (op : Op) : { f : Fields // f.violation = none ∧ Op.ofCode f.op = op } ≃ op.FreeFields where
  toFun f :=
    have h := f.2.2 ▸ Fields.violation_eq_none.1 f.2.1
    (f.1.ch, ⟨f.1.a, h.1⟩, ⟨f.1.b, h.2.1⟩, ⟨f.1.imm, h.2.2.2⟩)
  invFun x :=
    ⟨⟨op.code, x.1, x.2.1, x.2.2.1, false, x.2.2.2⟩, by
      simpa [Fields.violation_eq_none, x.2.1.2, x.2.2.1.2] using x.2.2.2.2⟩
  left_inv f := by
    obtain ⟨⟨code, ch, a, b, z, imm⟩, hviolation, rfl⟩ := f
    obtain ⟨-, -, rfl, -⟩ := Fields.violation_eq_none.1 hviolation
    simp
  right_inv _ := rfl

theorem card_bitVec (n : Nat) : Nat.card (BitVec n) = 2 ^ n :=
  (Nat.card_congr BitVec.equivFin.toEquiv).trans (Nat.card_fin _)

theorem card_bitOperand (uses : Bool) : Nat.card { a : Bool // (a && !uses) = false } = if uses then 2 else 1 := by
  rw [Nat.card_eq_fintype_card]
  cases uses <;> rfl

theorem card_immOperand (uses : Bool) : Nat.card { imm : Word // imm = 0 ∨ uses = true } = if uses then 2 ^ 32 else 1 := by
  cases uses with
  | true => simpa [Nat.card_subtype_true] using card_bitVec 32
  | false => simp

/-- How many descriptors of an operation are valid: one for each value of its free fields. -/
theorem card_validDescriptors (op : Op) :
    Nat.card { w : Descriptor // ∃ i, decode w = .ok i ∧ i.op = op } =
      4 * (if op.usesA then 2 else 1) * (if op.usesB then 2 else 1) * (if op.usesImm then 2 ^ 32 else 1) := by
  have hfree : { w : Descriptor // ∃ i, decode w = .ok i ∧ i.op = op } ≃ op.FreeFields :=
    (descriptorEquivFields.subtypeEquiv fun _ => decode_op_iff).trans (validFieldsEquivFree op)
  rw [Nat.card_congr hfree, Nat.card_prod, Nat.card_prod, Nat.card_prod, card_bitVec, card_bitOperand, card_bitOperand, card_immOperand]
  ring

/-- The eight operations (R48). -/
@[reducible] def Op.fintype : Fintype Op where
  elems := ⟨[Op.construct, .read, .write, .isrev, .setrev, .trig, .dir, .pins], by decide⟩
  complete op := by cases op <;> decide

/-- The valid descriptors, sorted by their operation. -/
def validDescriptorsEquivSigma :
    { w : Descriptor // ∃ i, decode w = .ok i } ≃ Σ op, { w : Descriptor // ∃ i, decode w = .ok i ∧ i.op = op } where
  toFun w := ⟨Op.ofCode (Fields.ofWord w.1).op, w.1, by
    obtain ⟨w, i, hi⟩ := w
    exact decode_op_iff.2 ⟨(decode_eq_ok.1 hi).1, rfl⟩⟩
  invFun x := ⟨x.2.1, x.2.2.imp fun _ h => h.1⟩
  left_inv _ := rfl
  right_inv x := by
    obtain ⟨op, w, hw⟩ := x
    obtain ⟨-, rfl⟩ := decode_op_iff.1 hw
    rfl

/-- Settles O4: each operation's descriptors are counted by its free fields (`card_validDescriptors`), and a valid descriptor is one of
exactly one operation. -/
theorem validDescriptorCounts : Obligations.ValidDescriptorCounts := by
  refine ⟨fun op => ?perOp, ?total⟩
  case perOp =>
    rw [card_validDescriptors]
    cases op <;> rfl
  case total =>
    let _ := Op.fintype
    rw [Nat.card_congr validDescriptorsEquivSigma, Nat.card_sigma]
    simp only [card_validDescriptors]
    rfl

end Sys2Proof
end

section
/-! SUPPORT. The invariant of one channel, and every step keeping it (R22, R30d, R92, R93, R105). -/

namespace Sys2Proof.Machine

/-- A channel that keeps its levels and its claim, and of whose raised events none is new, keeps the invariant. -/
theorem Chan.Inv.of_events_sublist {x y : Chan} (h : x.Inv) (hdec : x.decoder.isSome = true → y.decoder.isSome = true)
    (ht : y.tPrev = x.tPrev) (hd : y.dPrev = x.dPrev)
    (hevents : (y.raised.map Raised.event).Sublist (x.raised.map Raised.event)) : y.Inv where
  levels_together := by rw [ht, hd, h.levels_together]
  raised_claimed hy := hdec (h.raised_claimed fun hx => hy (by simpa [hx] using hevents))
  raised_levels r hr := by
    obtain ⟨r', hr', heq⟩ := List.mem_map.1 (hevents.subset (List.mem_map_of_mem hr))
    rw [ht, hd, ← heq]
    exact h.raised_levels r' hr'
  raised_lines := by
    have hx : ((x.raised.map Raised.event).map EdgeEvent.line).Nodup := by simpa [Function.comp_def] using h.raised_lines
    simpa [Function.comp_def] using hx.sublist (hevents.map EdgeEvent.line)

/-- A step that comes before the raised events leaves them, but for their room. -/
theorem Chan.Inv.age {x : Chan} (h : x.Inv) : x.age.Inv :=
  h.of_events_sublist (by simp) (by simp) (by simp) (by simp)

theorem Chan.Inv.setDecoder {x : Chan} (h : x.Inv) (d : Decoder) : { x with decoder := some d }.Inv :=
  h.of_events_sublist (fun _ => rfl) rfl rfl (List.Sublist.refl _)

theorem Chan.Inv.dropRaised {x : Chan} (h : x.Inv) {r : Raised} {es : List Raised} (hx : x.raised = r :: es) :
    { x with raised := es }.Inv :=
  h.of_events_sublist id rfl rfl (by simp [hx])

theorem Chan.inv_reset : Chan.reset.Inv :=
  ⟨rfl, fun h => absurd rfl h, fun _ h => (by cases h), List.nodup_nil⟩

/-- What changes one channel, to one of the invariant, keeps every channel's. -/
theorem channels_inv_of_others {s t : State} {c : Channel} (h : ∀ c', (s.chan c').Inv) (hc : (t.chan c).Inv)
    (hothers : ∀ c', c' ≠ c → t.chan c' = s.chan c') (c' : Channel) : (t.chan c').Inv := by
  by_cases hne : c' = c
  · exact hne ▸ hc
  · exact hothers c' hne ▸ h c'

theorem edgeEvent_channels_inv {s : State} (h : ∀ c', (s.chan c').Inv) (c : Channel) (e : EdgeEvent) :
    ∀ c', ((s.edgeEvent c e).chan c').Inv := by
  refine channels_inv_of_others h ?_ fun c' => edgeEvent_chan_of_ne s e
  rw [edgeEvent_chan]
  exact (h c).of_events_sublist (by simp) rfl rfl (List.Sublist.refl _)

/-- A sampling instant of a channel without raised events raises events of different lines, with the levels it latches, and only on a
claimed channel. -/
theorem sample_chan_inv {s : State} {c : Channel} (hs : s.raised c = []) (t d : Bool) : ((s.sample c t d).chan c).Inv := by
  rw [sample_chan, hs, List.nil_append]
  exact {
    levels_together := rfl
    raised_claimed := fun h => by
      by_contra hc
      have hc : s.claimed c = false := Bool.eq_false_iff.2 hc
      simp [hc, raisedEvents] at h
    raised_levels := fun r hr => by
      obtain ⟨hT, hD⟩ := raisedEvents_levels hr
      exact ⟨congrArg some hT.symm, congrArg some hD.symm⟩
    raised_lines := raisedEvents_lines_nodup _ _ _ _ _ }

/-- An operation keeps every channel's invariant, a sampling instant where its channel has no raised event (R105). -/
theorem exec_channels_inv {s t : State} {i : Instr} (hinv : ∀ c, (s.chan c).Inv)
    (hpins : ∀ c, i.op = .pins → i.ch = c.index → s.raised c = []) (h : exec i s = .next t) : ∀ c, (t.chan c).Inv := by
  rcases exec_cases h with ⟨f, -, -, rfl⟩ | ⟨c, -, ⟨-, w, rfl⟩ | ⟨-, d, rfl⟩ | ⟨-, e, -, rfl⟩ | ⟨x, y, rfl, rfl⟩⟩
  · exact hinv
  · exact hinv
  · exact channels_inv_of_others hinv (by simpa only [State.chan_noResult, State.chan_setDecoder] using (hinv c).setDecoder d)
      fun c' => s.chan_setDecoder_of_ne d
  · exact edgeEvent_channels_inv hinv c e
  · exact channels_inv_of_others hinv (sample_chan_inv (hpins c rfl rfl) x y) fun c' => sample_chan_of_ne s x y

theorem age_channels_inv {s : State} (hinv : ∀ c, (s.chan c).Inv) (c : Channel) : (s.age.chan c).Inv := by
  rw [State.chan_age]
  exact (hinv c).age

theorem eventStep_channels_inv {s : State} {c : Channel} (hinv : ∀ c, (s.chan c).Inv) (hc : s.hasRaised c = true) :
    ∀ c', ((s.eventStep c).chan c').Inv := by
  obtain ⟨r, es, hr⟩ := hasRaised_eq_true.1 hc
  have hage := age_channels_inv hinv
  rw [eventStep_cons hr]
  refine edgeEvent_channels_inv (channels_inv_of_others hage ?_ fun c' => s.age.chan_setChan_of_ne _) c r.event
  rw [State.chan_setChan]
  exact (hage c).dropRaised (State.raised_age_cons hr)

/-- Every step keeps every channel's invariant: it is reset, the step of a raised event, or an operation taken in its turn. -/
theorem step_channels_inv {s t : State} (hinv : ∀ c, (s.chan c).Inv) (h : step s = .next t) : ∀ c, (t.chan c).Inv := by
  rcases step_cases h with ⟨rest, -, rfl⟩ | ⟨-, c, hc, rfl⟩ | ⟨p, w, placement, rest, i, -, hturn, -, -, hexec⟩
  · intro c
    rw [State.chan_restart]
    exact Chan.inv_reset
  · exact eventStep_channels_inv hinv hc
  · obtain ⟨-, hpins, -⟩ := turn_eq_none hturn
    have htake (c : Channel) : ((s.take rest placement).chan c).Inv := age_channels_inv hinv c
    exact exec_channels_inv htake (fun c hop hi => State.raised_age_of_nil (hpins i c rfl hop hi)) hexec

/-- Settles O41: every channel's invariant is kept (`step_channels_inv`), and so is R30(d) (`step_started_claimed`). -/
theorem everyStepKeepsTheInvariant : Obligations.EveryStepKeepsTheInvariant :=
  fun _ _ hinv h => ⟨step_channels_inv hinv.channels h, step_started_claimed h hinv.started_claimed⟩

/-- Settles O40: after reset every channel is `Chan.reset`, and no event has been delivered. -/
theorem resetMeetsTheInvariant : Obligations.ResetMeetsTheInvariant where
  channels c := State.chan_reset c ▸ Chan.inv_reset
  started_claimed h := by cases h

end Sys2Proof.Machine
end

section
/-! SUPPORT. The orders in which an edge event and another operation of its channel may come (R41, R106, R125 to R128). -/

namespace Sys2Proof.Machine

/-! Two edge events (R106). -/

theorem tick_comm (b b' : Bool) (p : Word) : tick b' (tick b p) = tick b (tick b' p) := by
  simp only [tick_eq_add_delta, add_right_comm]

/-- Two edge events of a claimed channel: the flag stays, so each adds its ±1 whichever comes first. -/
theorem edgeEvent_comm {s : State} {c : Channel} (hc : s.claimed c = true) (e e' : EdgeEvent) :
    (s.edgeEvent c e).edgeEvent c e' = (s.edgeEvent c e').edgeEvent c e := by
  have hblock (f g : EdgeEvent) : ((s.edgeEvent c f).edgeEvent c g).started = true ∧
      ((s.edgeEvent c f).edgeEvent c g).out = .none ∧ ((s.edgeEvent c f).edgeEvent c g).fault = s.fault := by
    obtain ⟨hstarted, hout, hfault⟩ := edgeEvent_block ((edgeEvent_claimed_eq s c c f).trans hc) g
    exact ⟨hstarted, hout, hfault.trans (edgeEvent_block hc f).2.2⟩
  obtain ⟨hstarted, hout, hfault⟩ := hblock e e'
  obtain ⟨hstarted', hout', hfault'⟩ := hblock e' e
  refine State.ext_fields (fun c' => ?channel) (hstarted.trans hstarted'.symm) (hfault.trans hfault'.symm)
    (hout.trans hout'.symm) (by simp) (by simp)
  case channel =>
    by_cases hne : c' = c
    · subst hne
      simp only [edgeEvent_chan, Option.map_map, Function.comp_def, tick_comm (cw e.line _ _ _)]
    · simp only [edgeEvent_chan_of_ne _ _ hne]

/-- Settles O24: the ±1 of two edge events commute (`edgeEvent_comm`). -/
theorem edgeEventsCommute : Obligations.EdgeEventsCommute := fun s c e e' hc =>
  ⟨_, runAll_edgeEvent_pair s c e e', (runAll_edgeEvent_pair s c e' e).trans (congrArg _ (edgeEvent_comm hc e' e))⟩

/-! A host access and an edge event (R125 to R128). -/

/-- Settles O25: READ leaves the decoder the event ticks, and READ after the event finds it ticked. -/
theorem readRaceSeesOneOfTwoValues : Obligations.ReadRaceSeesOneOfTwoValues := by
  intro s c e p r hp hr
  have hd : s.decoder c = some ⟨p, r⟩ := (s.decoder_eq_some_iff c _).2 ⟨hp, hr⟩
  have hread : (s.withResult p).decoder c = some ⟨p, r⟩ := hd
  rw [← tick_eq_add]
  exact ⟨⟨_, _, exec_read_claimed hd, rfl, exec_edgeEvent_instr c e _, edgeEvent_position hread e⟩,
    ⟨_, runAll_pair (exec_edgeEvent_instr c e s) (exec_read_claimed (edgeEvent_decoder hd e)), rfl⟩⟩

/-- Settles O26: the access that comes second finds the decoder that the first left. -/
theorem writeAndSetrevRacesHaveTwoOutcomes : Obligations.WriteAndSetrevRacesHaveTwoOutcomes := by
  intro s c e p n r b hp hr
  have hd : s.decoder c = some ⟨p, r⟩ := (s.decoder_eq_some_iff c _).2 ⟨hp, hr⟩
  have hticked := edgeEvent_decoder hd e
  have hwritten (d : Decoder) : (s.setDecoder c d).noResult.decoder c = some d := s.decoder_setDecoder c d
  simp only [← tick_eq_add]
  refine ⟨⟨_, runAll_pair (exec_edgeEvent_instr c e s) (exec_write_claimed hticked n), by simp⟩,
    ⟨_, runAll_pair (exec_write_claimed hd n) (exec_edgeEvent_instr c e _), edgeEvent_position (hwritten ⟨n, r⟩) e⟩,
    ⟨_, runAll_pair (exec_edgeEvent_instr c e s) (exec_setrev_claimed hticked b), by simp, by simp⟩,
    ⟨_, runAll_pair (exec_setrev_claimed hd b) (exec_edgeEvent_instr c e _), ?_⟩⟩
  exact ((State.decoder_eq_some_iff _ c _).1 (edgeEvent_decoder (hwritten ⟨p, b⟩) e)).symm

end Sys2Proof.Machine
end

section
/-! SUPPORT. Which operations write which piece of state (R13, R14, R16, R23, R32). -/

namespace Sys2Proof.Machine

/-! What is kept where the operation faults, and where it goes on with its channel. -/

theorem onChannel_keeps {P : State → Prop} {s : State} {k : Channel → State} (hraise : ∀ f, P (s.raise f)) (hk : ∀ c, P (k c))
    (ch : Nat) (op : Op) : P (onChannel ch op s k) := by
  rcases onChannel_cases ch op s k with h | ⟨c, -, h⟩
  · exact h ▸ hraise _
  · exact h ▸ hk c

theorem onDecoder_keeps {P : State → Prop} {s : State} {k : Channel → Decoder → State} (hraise : ∀ f, P (s.raise f))
    (hk : ∀ c d, s.decoder c = some d → P (k c d)) (ch : Nat) (op : Op) : P (onDecoder ch op s k) := by
  rcases onDecoder_cases ch op s k with ⟨f, -, -, h⟩ | ⟨c, d, -, hd, h⟩
  · exact h ▸ hraise f
  · exact h ▸ hk c d hd

/-- Replacing a channel's decoder by one with the same part `f` keeps that part of every channel. -/
theorem setDecoder_noResult_map_decoder {α : Type} (f : Decoder → α) {s : State} {c : Channel} {d d' : Decoder}
    (hd : s.decoder c = some d) (hf : f d' = f d) (c' : Channel) :
    ((s.setDecoder c d').noResult.decoder c').map f = (s.decoder c').map f := by
  by_cases hne : c' = c
  · subst hne
    rw [State.decoder_noResult, State.decoder_setDecoder, hd, Option.map_some, Option.map_some, hf]
  · rw [State.decoder_noResult, State.decoder, s.chan_setDecoder_of_ne d' hne, State.decoder]

theorem edgeEvent_reversed (s : State) (c c' : Channel) (e : EdgeEvent) : (s.edgeEvent c e).reversed c' = s.reversed c' := by
  by_cases hne : c' = c
  · subst hne
    simp [State.reversed, State.decoder, edgeEvent_chan, Function.comp_def]
  · simp [State.reversed, State.decoder, edgeEvent_chan_of_ne s e hne]

section
variable {s t : State} {i : Instr} {c : Channel} (h : exec i s = .next t)
include h

/-- An operation that changes anything of a channel names that channel (R85). -/
theorem exec_ch_of_chan_ne {α : Type} (f : Chan → α) (hne : f (t.chan c) ≠ f (s.chan c)) : i.ch = c.index := by
  by_contra hi
  exact hne (congrArg f (exec_chan_of_index_ne h hi))

/-- READ and ISREV change no channel (R66, R69). -/
theorem exec_reads_chan (hop : i.op = .read ∨ i.op = .isrev) : t.chan c = s.chan c := by
  cases i <;> simp only [Instr.op, reduceCtorEq, or_self] at hop <;> cases h
  case read | isrev =>
    refine onDecoder_keeps (P := fun t => t.chan c = s.chan c) (fun _ => rfl) (fun _ _ _ => ?_) _ _
    rfl

/-- The counter changes only by CONSTRUCT, WRITE and the two edge events. -/
theorem exec_position_kept (hop : i.op ∉ [Op.construct, .write, .trig, .dir]) : t.position c = s.position c := by
  cases i with
  | construct | write | trig | dir => simp [Instr.op] at hop
  | read | isrev => exact congrArg (fun x : Chan => x.decoder.map Decoder.position) (exec_reads_chan h (by simp [Instr.op]))
  | setrev ch b =>
    cases h
    refine onDecoder_keeps (P := fun t => t.position c = s.position c) (fun _ => rfl) (fun _ _ hd => ?_) _ _
    exact setDecoder_noResult_map_decoder (d' := ⟨_, b⟩) Decoder.position hd rfl c
  | pins ch x y =>
    cases h
    exact onChannel_keeps (P := fun t => t.position c = s.position c) (fun _ => rfl) (fun _ => by simp [State.position]) _ _

/-- The flag changes only by CONSTRUCT and SETREV. -/
theorem exec_reversed_kept (hop : i.op ∉ [Op.construct, .setrev]) : t.reversed c = s.reversed c := by
  cases i with
  | construct | setrev => simp [Instr.op] at hop
  | read | isrev => exact congrArg (fun x : Chan => x.decoder.map Decoder.reversed) (exec_reads_chan h (by simp [Instr.op]))
  | write ch n =>
    cases h
    refine onDecoder_keeps (P := fun t => t.reversed c = s.reversed c) (fun _ => rfl) (fun _ _ hd => ?_) _ _
    exact setDecoder_noResult_map_decoder (d' := ⟨n, _⟩) Decoder.reversed hd rfl c
  | trig | dir =>
    cases h
    exact onChannel_keeps (P := fun t => t.reversed c = s.reversed c) (fun _ => rfl) (fun c' => edgeEvent_reversed s c' c _) _ _
  | pins ch x y =>
    cases h
    exact onChannel_keeps (P := fun t => t.reversed c = s.reversed c) (fun _ => rfl) (fun _ => by simp [State.reversed]) _ _

/-- A channel becomes claimed only by CONSTRUCT: the others keep its flag, or for SETREV its counter. -/
theorem exec_claimed_kept (hop : i.op ≠ .construct) : t.claimed c = s.claimed c := by
  by_cases hrev : i.op = .setrev
  · rw [← State.position_isSome, exec_position_kept h (by simp [hrev]), State.position_isSome]
  · rw [← State.reversed_isSome, exec_reversed_kept h (by simp [hop, hrev]), State.reversed_isSome]

/-- The previous levels and the raised events change only by PINS. -/
theorem exec_sampled_kept (hop : i.op ≠ .pins) : t.tPrev c = s.tPrev c ∧ t.dPrev c = s.dPrev c ∧ t.raised c = s.raised c := by
  rcases exec_cases h with ⟨f, -, -, rfl⟩ | ⟨c', -, ⟨-, w, rfl⟩ | ⟨-, d, rfl⟩ | ⟨-, e, -, rfl⟩ | ⟨x, y, rfl, -⟩⟩
  · exact ⟨rfl, rfl, rfl⟩
  · exact ⟨rfl, rfl, rfl⟩
  · simp
  · simp
  · exact absurd rfl hop

/-- `started` changes only by an edge event, and only to 1. -/
theorem exec_started_writers (hne : t.started ≠ s.started) : i.op ∈ [Op.trig, .dir] ∧ t.started = true := by
  rcases exec_cases h with ⟨f, -, -, rfl⟩ | ⟨c, -, ⟨-, w, rfl⟩ | ⟨-, d, rfl⟩ | ⟨hc, e, rfl, rfl⟩ | ⟨x, y, -, rfl⟩⟩
  · exact absurd rfl hne
  · exact absurd rfl hne
  · exact absurd rfl hne
  · refine ⟨?_, (edgeEvent_block hc e).1⟩
    obtain ⟨l, T, D⟩ := e
    cases l <;> simp [EdgeEvent.instr, Instr.op]
  · exact absurd rfl hne

end

/-- Settles O38: what changes belongs to the channel the operation names (`exec_ch_of_chan_ne`), and every operation not listed for a
piece of state keeps it. -/
theorem onlyTheListedOperationsWrite : Obligations.OnlyTheListedOperationsWrite := by
  intro s t i c h
  refine ⟨fun hne => ⟨exec_ch_of_chan_ne h (fun x => x.decoder.map Decoder.position) hne, ?pos⟩,
    fun hne => ⟨exec_ch_of_chan_ne h (fun x => (x.decoder.map Decoder.reversed).map zext32) hne, ?rev⟩, fun hne => ?claimed,
    fun hne => ?levels, fun hne => ?started, fun hne => ⟨exec_ch_of_chan_ne h Chan.raised hne, ?raised⟩⟩
  case pos =>
    by_contra hop
    exact hne (exec_position_kept h fun hmem => hop (by simp at hmem ⊢; tauto))
  case rev =>
    by_contra hop
    exact hne (congrArg (Option.map zext32) (exec_reversed_kept h hop))
  case claimed =>
    have hch := exec_ch_of_chan_ne h (fun x => x.decoder.isSome) hne
    have hop : i.op = .construct := by
      by_contra hop
      exact hne (exec_claimed_kept h hop)
    cases i with
    | construct ch => exact congrArg _ hch
    | read | write | isrev | setrev | trig | dir | pins => cases hop
  case levels =>
    refine ⟨exec_ch_of_chan_ne h (fun x => (x.tPrev, x.dPrev)) fun heq => ?_, ?_⟩
    · obtain ⟨ht, hd⟩ := Prod.mk.inj heq
      exact hne.elim (absurd ht) (absurd hd)
    · by_contra hop
      obtain ⟨ht, hd, -⟩ := exec_sampled_kept (c := c) h hop
      exact hne.elim (absurd ht) (absurd hd)
  case started =>
    obtain ⟨hop, hstarted⟩ := exec_started_writers h hne
    exact ⟨List.mem_append_left [Op.pins] hop, hstarted⟩
  case raised =>
    by_contra hop
    exact hne (exec_sampled_kept h hop).2.2

/-- Settles O11: every arm of `exec` answers a next state (`exec_answers`), and a step is reset, an edge event, such an arm, or a
refusal. -/
theorem everyOperationEndsInOneStep : Obligations.EveryOperationEndsInOneStep := by
  refine ⟨exec_answers, fun s f h => ?_⟩
  unfold step at h
  split at h
  · cases h
  · split at h <;> cases h
  · split at h
    · cases h
    · split at h
      · cases h
      · rename_i placement rest _ _ _ _ i _
        obtain ⟨t, ht⟩ := exec_answers i (s.take rest placement)
        cases ht.symm.trans h

end Sys2Proof.Machine
end

section
/-! SUPPORT. Which step comes next, by what is presented and which events are raised (R7, R52, R89, R94, R105). -/

namespace Sys2Proof.Machine

/-! What is presented, and the step it leads to. -/

/-- What the boundary makes of what is presented next, reset apart: the refusal or the instruction that `step` asks `State.turn` about
(`step_of_turn`, `step_of_no_turn`). -/
def State.presented (s : State) : Except Refusal Instr :=
  match s.inputs with
  | .op p w _ :: _ => boundary p w
  | _ => .error .endOfInputs

theorem presented_of_nil {s : State} (h : s.inputs = []) : s.presented = .error .endOfInputs := by
  simp [State.presented, h]

theorem presented_of_op {s : State} {p : Port} {w : Descriptor} {placement : Schedule} {rest : List Input}
    (h : s.inputs = .op p w placement :: rest) : s.presented = boundary p w := by
  simp [State.presented, h]

/-- A raised event that has its turn is the step, unless reset comes. -/
theorem step_of_turn {s : State} {c : Channel} (hr : noReset s.inputs) (h : s.turn s.presented = some c) :
    step s = .next (s.eventStep c) := by
  unfold step
  split
  · rename_i rest hi; exact absurd hi (hr rest)
  · rename_i hi; rw [← presented_of_nil hi, h]
  · rename_i hi; rw [← presented_of_op hi, h]

/-- With no event having its turn the instruction that is presented is run. -/
theorem step_of_no_turn {s : State} {p : Port} {w : Descriptor} {placement : Schedule} {rest : List Input} {i : Instr}
    (hi : s.inputs = .op p w placement :: rest) (hb : boundary p w = .ok i) (h : s.turn (.ok i) = none) :
    step s = exec i (s.take rest placement) := by
  unfold step
  simp only [hi, hb, h]

/-- Only an operation can be presented as an instruction. -/
theorem inputs_of_presented_ok {s : State} {i : Instr} (h : s.presented = .ok i) :
    ∃ p w placement rest, s.inputs = .op p w placement :: rest ∧ boundary p w = .ok i := by
  unfold State.presented at h
  split at h
  · rename_i hi; exact ⟨_, _, _, _, hi, h⟩
  · cases h

/-- Past the command port every operation is accepted, on it every host operation (R94, R112). -/
theorem boundary_ok {p : Port} {w : Descriptor} {i : Instr} (hd : decode w = .ok i) (hp : p = .direct ∨ i.op.issuedBy = .host) :
    boundary p w = .ok i := by
  rcases hp with rfl | hp
  · simp [boundary, hd, Port.accepts]
  · cases p <;> simp [boundary, hd, Port.accepts, hp]

/-- An event or sampling instant on the command port: as `CMD_ACCEPTS_EVENTS` says (R94). -/
theorem boundary_cmd_event {w : Descriptor} {i : Instr} (hd : decode w = .ok i) (hi : i.op.issuedBy ≠ .host) :
    boundary .cmd w = if Config.cmdAcceptsEvents = true then .ok i else .error (.notAHostOperation i.op) := by
  simp [boundary, hd, Port.accepts, hi]

theorem take_of_settled {s : State} (h : s.settled) (rest : List Input) (placement : Schedule) :
    s.take rest placement = { s with inputs := rest, schedule := placement } := by
  rw [State.take, State.age_of_settled h]

/-! Whose turn it is. -/

theorem isDue_eq_false {s : State} {c : Channel} : s.isDue c = false ↔ ∀ r es, s.raised c = r :: es → r.room ≠ 0 := by
  rw [← Bool.not_eq_true, isDue_eq_true]
  exact ⟨fun h r es hr h0 => h ⟨r, es, hr, h0⟩, fun h ⟨r, es, hr, h0⟩ => h r es hr h0⟩

section
variable {s : State} (hdue : ∀ c, s.isDue c = false)
include hdue

/-- Where no event is due an instruction has its turn before the raised events, but for a sampling instant of a channel that has one. -/
theorem turn_instr_eq_none {i : Instr} (hi : i.op = .pins → ∀ c : Channel, i.ch = c.index → s.raised c = []) :
    s.turn (.ok i) = none := by
  unfold State.turn
  rw [firstChannel_eq_none.2 hdue]
  by_cases hop : i.op = .pins
  · simp only [hop, beq_self_eq_true, if_true, Option.filter_eq_none_iff]
    intro c hc
    simp [State.hasRaised, hi hop c (Channel.ofNat?_eq_some hc)]
  · simp [hop]

/-- Where no event is due a sampling instant waits for the raised events of its channel (R105). -/
theorem turn_of_pins {i : Instr} {c : Channel} (hop : i.op = .pins) (hi : i.ch = c.index) (hc : s.hasRaised c = true) :
    s.turn (.ok i) = some c := by
  unfold State.turn
  rw [firstChannel_eq_none.2 hdue]
  simp [hop, hi, hc]

/-- Where no event is due a refusal waits for every raised event. -/
theorem turn_of_refusal {c : Channel} (hc : s.hasRaised c = true) (hfirst : ∀ c' : Channel, c'.index < c.index → s.raised c' = [])
    (r : Refusal) : s.turn (.error r) = some c := by
  unfold State.turn
  rw [firstChannel_eq_none.2 hdue]
  exact firstChannel_eq_some.2 ⟨hc, fun c' hlt => hasRaised_eq_false.2 (hfirst c' hlt)⟩

end

/-! The statements. -/

/-- Settles O6: the boundary accepts the operation, and no raised event has its turn before it. -/
theorem stepRunsTheDecodedOperation : Obligations.StepRunsTheDecodedOperation := by
  intro s p w placement rest i hin hd hp
  have hb := boundary_ok hd hp
  refine ⟨fun hroom hpins => ?between, fun hs => ?settled⟩
  case between => exact step_of_no_turn hin hb (turn_instr_eq_none (fun c => isDue_eq_false.2 (hroom c)) hpins)
  case settled => rw [step_of_no_turn hin hb (turn_of_settled hs _), take_of_settled hs]

/-- Settles O7: with no event raised what the boundary answers decides the step, and it answers as the parameter says. -/
theorem commandPortTreatsEventsAsConfigured : Obligations.CommandPortTreatsEventsAsConfigured := by
  intro s w placement rest i hs hin hd hi
  have hb := boundary_cmd_event hd hi
  split_ifs at hb ⊢
  · rw [step_of_no_turn hin hb (turn_of_settled hs _), take_of_settled hs]
  · exact step_refused hs hin hb

/-- The step of a raised event is its handler's operation, run where the event is no longer raised (R89). -/
theorem exec_raised_eq_eventStep {s : State} {c : Channel} {r : Raised} {es : List Raised} (h : s.raised c = r :: es) :
    exec (r.event.instr c) (s.age.setChan c { s.age.chan c with raised := es }) = .next (s.eventStep c) := by
  rw [exec_edgeEvent_instr, eventStep_cons h]

/-- Settles O8: the step of a raised event is its handler's operation (`exec_raised_eq_eventStep`), and each clause is a case in which
`State.turn` answers its channel. -/
theorem raisedEventRunsItsHandler : Obligations.RaisedEventRunsItsHandler := by
  intro s c r es h hr
  dsimp only
  rw [exec_raised_eq_eventStep h]
  have hc : s.hasRaised c = true := hasRaised_eq_true.2 ⟨r, es, h⟩
  refine ⟨fun hroom hfirst => ?due, fun hroom => ?notDue⟩
  case due => exact step_eventStep hr (isDue_eq_true.2 ⟨r, es, h, hroom⟩) fun c' hlt => isDue_eq_false.2 (hfirst c' · · hlt)
  case notDue =>
    have hdue (c' : Channel) : s.isDue c' = false := isDue_eq_false.2 (hroom c')
    refine ⟨fun w placement rest i hin hd hop hi => step_of_turn hr ?pins, fun hfirst hin => step_of_turn hr ?refusal⟩
    case pins =>
      rw [presented_of_op hin, boundary_ok hd (.inl rfl)]
      exact turn_of_pins hdue hop hi hc
    case refusal =>
      rcases hin with hin | ⟨p, w, placement, rest, e, hin, he⟩
      · rw [presented_of_nil hin]
        exact turn_of_refusal hdue hc hfirst _
      · rw [presented_of_op hin, boundary_invalid he p]
        exact turn_of_refusal hdue hc hfirst _

end Sys2Proof.Machine
end

section
/-! SUPPORT. How many events are raised, and how many steps a raised event and a whole trace wait (R105, R135). -/

namespace Sys2Proof.Machine

/-! The number of raised events. -/

/-- The number of events still to come, of all channels. -/
def State.raisedCount (s : State) : Nat :=
  (s.raised .A).length + (s.raised .B).length + (s.raised .C).length + (s.raised .D).length

theorem raised_age_length (s : State) (c : Channel) : (s.age.raised c).length = (s.raised c).length := by
  rw [State.raised, State.chan_age, State.raised]
  simpa only [List.length_map] using congrArg List.length (s.chan c).age_events

theorem raised_age_tail (s : State) (c : Channel) : (s.age.raised c).tail = (s.raised c).tail := by
  cases h : s.raised c with
  | nil => rw [State.raised_age_of_nil h]
  | cons r es => rw [State.raised_age_cons h, List.tail_cons, List.tail_cons]

/-- A raised event's step takes it, and only it, from the raised events. -/
theorem eventStep_raised (s : State) (c c' : Channel) :
    (s.eventStep c).raised c' = if c' = c then (s.raised c).tail else s.age.raised c' := by
  rw [State.eventStep, performRaised_raised, raised_age_tail]

theorem raisedCount_eventStep {s : State} {c : Channel} (h : s.hasRaised c = true) :
    (s.eventStep c).raisedCount + 1 = s.raisedCount := by
  obtain ⟨r, es, hr⟩ := hasRaised_eq_true.1 h
  have hlength : (s.raised c).tail.length + 1 = (s.raised c).length := by rw [hr]; rfl
  cases c <;> simp only [State.raisedCount, eventStep_raised, reduceCtorEq, ↓reduceIte, raised_age_length] <;> omega

theorem raisedCount_take (s : State) (rest : List Input) (placement : Schedule) :
    (s.take rest placement).raisedCount = s.raisedCount := by
  simp only [State.raisedCount, State.raised_take, raised_age_length]

/-- Where one channel may have `n` more raised events and the others have theirs, all have at most `n` more. -/
theorem raisedCount_le_add {s t : State} {c : Channel} {n : Nat} (hc : (t.raised c).length ≤ (s.raised c).length + n)
    (hothers : ∀ c', c' ≠ c → t.raised c' = s.raised c') : t.raisedCount ≤ s.raisedCount + n := by
  have hle (c' : Channel) : (t.raised c').length ≤ (s.raised c').length + if c' = c then n else 0 := by
    split_ifs with hne
    · exact hne ▸ hc
    · rw [hothers c' hne, Nat.add_zero]
  have hA := hle .A; have hB := hle .B; have hC := hle .C; have hD := hle .D
  unfold State.raisedCount
  cases c <;> simp only [reduceCtorEq, ↓reduceIte] at hA hB hC hD <;> omega

theorem raised_length_le_raisedCount (s : State) (c : Channel) : (s.raised c).length ≤ s.raisedCount := by
  unfold State.raisedCount
  cases c <;> omega

theorem raisedEvents_length_le (pl : Schedule) (te de t d : Bool) : (raisedEvents pl te de t d).length ≤ 2 := by
  cases te <;> cases de <;> simp [raisedEvents]

/-- Events of different lines are at most two. -/
theorem Chan.Inv.raised_length_le {x : Chan} (h : x.Inv) : x.raised.length ≤ 2 := by
  have hsub : (x.raised.map fun r => r.event.line) ⊆ [Line.trigger, .direction] := fun l _ => by cases l <;> simp
  simpa using (List.subperm_of_subset h.raised_lines hsub).length_le

/-- Under the invariant the other channels have at most 6 raised events. -/
theorem State.Inv.raisedCount_le {s : State} (h : s.Inv) (c : Channel) : s.raisedCount ≤ 6 + (s.raised c).length := by
  have hle (c' : Channel) : (s.raised c').length ≤ 2 := (h.channels c').raised_length_le
  have := hle .A; have := hle .B; have := hle .C; have := hle .D
  unfold State.raisedCount
  cases c <;> omega

/-- An operation raises at most two events, and only PINS raises any. -/
theorem raisedCount_exec {s t : State} {i : Instr} (h : exec i s = .next t) :
    t.raisedCount ≤ s.raisedCount + 2 * (if i.op = .pins then 1 else 0) := by
  split_ifs with hop
  · rcases exec_cases h with ⟨f, -, -, rfl⟩ | ⟨c, -, ⟨hmem, -⟩ | ⟨hmem, -⟩ | ⟨-, e, rfl, -⟩ | ⟨x, y, -, rfl⟩⟩
    · exact Nat.le_add_right _ _
    · simp [hop] at hmem
    · simp [hop] at hmem
    · obtain ⟨l, T, D⟩ := e
      cases l <;> cases hop
    · refine raisedCount_le_add (c := c) ?_ fun c' => sample_raised_of_ne s x y
      rw [State.raised, sample_chan, List.length_append]
      exact Nat.add_le_add_left (raisedEvents_length_le _ _ _ _ _) _
  · have hkept (c : Channel) : t.raised c = s.raised c := (exec_sampled_kept h hop).2.2
    simp only [State.raisedCount, hkept]
    omega

theorem exec_inputs {s t : State} {i : Instr} (h : exec i s = .next t) : t.inputs = s.inputs := by
  rcases exec_cases h with ⟨f, -, -, rfl⟩ | ⟨c, -, ⟨-, w, rfl⟩ | ⟨-, d, rfl⟩ | ⟨-, e, -, rfl⟩ | ⟨x, y, -, rfl⟩⟩
  · rfl
  · rfl
  · rfl
  · exact edgeEvent_inputs s c e
  · rfl

end Sys2Proof.Machine
end

section
/-! SUPPORT. A raised event has its turn: while it has room each step takes some of it, and once it is due each step performs an event of
another channel (R105). -/

namespace Sys2Proof.Machine

/-- After at most `k` steps reset comes next, or the event is the oldest of its channel and has the next step. -/
def GetsTurn (c : Channel) (e : EdgeEvent) (es : List Raised) (k : Nat) (s : State) : Prop :=
  ∃ j u, j ≤ k ∧ runSteps j s = .next u ∧
    (¬noReset u.inputs ∨ (∃ n, u.raised c = ⟨e, n⟩ :: es) ∧
      step u = exec (e.instr c) (u.age.setChan c { u.age.chan c with raised := es }))

section
variable {c : Channel} {e : EdgeEvent} {es : List Raised}

theorem GetsTurn.mono {k k' : Nat} {s : State} (h : GetsTurn c e es k s) (hk : k ≤ k') : GetsTurn c e es k' s := by
  obtain ⟨j, u, hj, hu⟩ := h
  exact ⟨j, u, hj.trans hk, hu⟩

theorem GetsTurn.of_step {k : Nat} {s t : State} (hst : step s = .next t) (h : GetsTurn c e es k t) : GetsTurn c e es (k + 1) s := by
  obtain ⟨j, u, hj, hrun, hu⟩ := h
  exact ⟨j + 1, u, Nat.succ_le_succ hj, (runSteps_succ hst j).trans hrun, hu⟩

/-- An event waits for one step only: where it has neither the next step nor reset comes, the step taken leaves it the oldest of its
channel, with less room; and one that is due waits only for an event of another channel, which is then no longer raised. -/
theorem getsTurn_or_step {n : Nat} {s : State} (hinv : s.Inv) (h : s.raised c = ⟨e, n⟩ :: es) :
    GetsTurn c e es 0 s ∨ ∃ t, step s = .next t ∧ t.Inv ∧ t.raised c = ⟨e, n - 1⟩ :: es ∧
      (n = 0 → t.raisedCount + 1 = s.raisedCount) := by
  by_cases hr : noReset s.inputs
  case neg => exact .inl ⟨0, s, le_rfl, rfl, .inl hr⟩
  have hage : s.age.raised c = ⟨e, n - 1⟩ :: es := State.raised_age_cons h
  cases hturn : s.turn s.presented with
  | some c' =>
    have hstep := step_of_turn hr hturn
    have hraised := turn_hasRaised hturn
    by_cases hne : c' = c
    · subst hne
      exact .inl ⟨0, s, le_rfl, rfl, .inr ⟨⟨n, h⟩, hstep.trans (exec_raised_eq_eventStep h).symm⟩⟩
    · have hkept : (s.eventStep c').raised c = ⟨e, n - 1⟩ :: es := by rw [eventStep_raised, if_neg (Ne.symm hne), hage]
      exact .inr ⟨_, hstep, everyStepKeepsTheInvariant s _ hinv hstep, hkept, fun _ => raisedCount_eventStep hraised⟩
  | none =>
    obtain ⟨hdue, hpins, hrefusal⟩ := turn_eq_none hturn
    cases hp : s.presented with
    | error r => cases (hrefusal r hp c).symm.trans h
    | ok i =>
      obtain ⟨p, w, placement, rest, hin, hb⟩ := inputs_of_presented_ok hp
      have hstep := step_of_no_turn hin hb (hp ▸ hturn)
      obtain ⟨t, ht⟩ := exec_answers i (s.take rest placement)
      have hkept : t.raised c = (s.take rest placement).raised c := by
        by_cases hi : i.ch = c.index
        · refine (exec_sampled_kept ht fun hop => ?_).2.2
          cases (hpins i c hp hop hi).symm.trans h
        · exact congrArg Chan.raised (exec_chan_of_index_ne ht hi)
      exact .inr ⟨t, hstep.trans ht, everyStepKeepsTheInvariant s t hinv (hstep.trans ht), hkept.trans hage,
        fun h0 => absurd h0 (isDue_eq_false.1 (hdue c) _ _ h)⟩

/-- A due event waits for no more steps than the other channels have raised events. -/
theorem getsTurn_of_due {m : Nat} {s : State} (hinv : s.Inv) (h : s.raised c = ⟨e, 0⟩ :: es)
    (hm : s.raisedCount ≤ m + (s.raised c).length) : GetsTurn c e es m s := by
  induction m generalizing s with
  | zero =>
    rcases getsTurn_or_step hinv h with hnow | ⟨t, -, -, ht, hcount⟩
    · exact hnow
    · have hle := raised_length_le_raisedCount t c
      rw [ht, List.length_cons] at hle
      rw [h, List.length_cons] at hm
      have := hcount rfl
      omega
  | succ m ih =>
    rcases getsTurn_or_step hinv h with hnow | ⟨t, hst, htinv, ht, hcount⟩
    · exact hnow.mono (Nat.zero_le _)
    · refine GetsTurn.of_step hst (ih htinv ht ?_)
      rw [h, List.length_cons] at hm
      rw [ht, List.length_cons]
      have := hcount rfl
      omega

/-- An event waits for its room and for the events of the other channels. -/
theorem getsTurn_of_room {n : Nat} {s : State} (hinv : s.Inv) (h : s.raised c = ⟨e, n⟩ :: es) : GetsTurn c e es (n + 6) s := by
  induction n generalizing s with
  | zero => exact (getsTurn_of_due hinv h (hinv.raisedCount_le c)).mono (Nat.le_add_left 6 0)
  | succ n ih =>
    rcases getsTurn_or_step hinv h with hnow | ⟨t, hst, htinv, ht, -⟩
    · exact hnow.mono (Nat.zero_le _)
    · exact (GetsTurn.of_step hst (ih htinv ht)).mono (by omega)

end

/-- Settles O29: a raised event waits for a bounded number of steps (`getsTurn_of_room`), and a PINS that is taken finds none of its
channel (`turn_eq_none`). -/
theorem raisedEventsGetTheirTurn : Obligations.RaisedEventsGetTheirTurn := by
  refine ⟨fun s c r es hinv h => getsTurn_of_room hinv h, fun s t c p w placement rest i hin hd hop hi h ht => ?_⟩
  rcases step_cases h with ⟨rest', hin', -⟩ | ⟨-, c', -, rfl⟩ | ⟨p', w', _, _, i', hin', hturn, -, hd', -⟩
  · cases hin.symm.trans hin'
  · have hinputs := (eventStep_inputs s c').symm.trans ht
    simp [hin] at hinputs
  · obtain ⟨-, hpins, -⟩ := turn_eq_none hturn
    cases hin.symm.trans hin'
    cases hd.symm.trans hd'
    exact hpins i c rfl hop hi

end Sys2Proof.Machine
end

section
/-! SUPPORT. A trace of accepted operations runs to its end: each step takes an operation or performs a raised event (R135). -/

namespace Sys2Proof.Machine

/-- What is presented is a valid operation that its port accepts. -/
abbrev Input.Accepted (x : Input) : Prop :=
  ∃ p w placement i, x = .op p w placement ∧ decode w = .ok i ∧ (p = .direct ∨ i.op.issuedBy = .host)

/-- What is presented has the operation code of PINS. -/
def Input.isPins (x : Input) : Bool :=
  match x with
  | .op _ w _ => Op.ofCode (Fields.ofWord w).op == .pins
  | .rst => false

theorem isPins_eq {w : Descriptor} {i : Instr} (hd : decode w = .ok i) (p : Port) (placement : Schedule) :
    (Input.op p w placement).isPins = decide (i.op = .pins) := by
  obtain ⟨-, rfl⟩ := decode_eq_ok.1 hd
  rw [Fields.instr_op]
  rfl

/-- The steps a run from here can take: one for each operation presented and each event raised, and two for each PINS presented. -/
def State.cost (s : State) : Nat := s.inputs.length + s.raisedCount + 2 * s.inputs.countP Input.isPins

theorem step_at_end {s : State} (hin : s.inputs = []) (hs : s.settled) : step s = .refused .endOfInputs := by
  unfold step
  simp only [hin, turn_of_settled hs]

/-- A raised event's step costs what the event did, and takes nothing that is presented. -/
theorem cost_eventStep {s : State} {c : Channel} (h : s.hasRaised c = true) : (s.eventStep c).cost + 1 = s.cost := by
  have := raisedCount_eventStep h
  simp only [State.cost, eventStep_inputs]
  omega

/-- An operation that is taken costs itself, and the events it raises were counted. -/
theorem cost_exec_take {s t : State} {p : Port} {w : Descriptor} {placement : Schedule} {rest : List Input} {i : Instr}
    (hin : s.inputs = .op p w placement :: rest) (hd : decode w = .ok i) (h : exec i (s.take rest placement) = .next t) :
    t.cost + 1 ≤ s.cost := by
  have hraised := raisedCount_exec h
  rw [raisedCount_take] at hraised
  simp only [State.cost, exec_inputs h, State.take_inputs, hin, List.length_cons, List.countP_cons, isPins_eq hd, decide_eq_true_eq]
  omega

/-- While something is presented or raised, a step is taken: it costs at least 1, and takes at most one operation. -/
theorem step_progress {s : State} (hacc : ∀ x ∈ s.inputs, x.Accepted) (hend : ¬(s.inputs = [] ∧ s.settled)) :
    ∃ t, step s = .next t ∧ (∀ x ∈ t.inputs, x.Accepted) ∧ t.cost + 1 ≤ s.cost ∧ s.inputs.length ≤ t.inputs.length + 1 := by
  have hr : noReset s.inputs := fun rest hin => by
    obtain ⟨p, w, placement, i, hx, -⟩ := hacc .rst (by simp [hin])
    cases hx
  cases hturn : s.turn s.presented with
  | some c =>
    have hraised := turn_hasRaised hturn
    refine ⟨_, step_of_turn hr hturn, ?_, (cost_eventStep hraised).le, ?_⟩ <;> rw [eventStep_inputs]
    · exact hacc
    · exact Nat.le_succ _
  | none =>
    cases hin : s.inputs with
    | nil => exact absurd ⟨hin, (turn_eq_none hturn).2.2 _ (presented_of_nil hin)⟩ hend
    | cons x rest =>
      obtain ⟨p, w, placement, i, rfl, hd, hp⟩ := hacc x (by simp [hin])
      have hb := boundary_ok hd hp
      obtain ⟨t, ht⟩ := exec_answers i (s.take rest placement)
      rw [presented_of_op hin, hb] at hturn
      refine ⟨t, (step_of_no_turn hin hb hturn).trans ht, ?_, cost_exec_take hin hd ht, ?_⟩ <;> rw [exec_inputs ht, State.take_inputs]
      · exact fun x hx => hacc x (by simp [hin, hx])
      · exact le_rfl

/-- A trace of accepted operations runs to its end, in at least a step for each operation and at most its cost. -/
theorem runSteps_to_end {s : State} (hacc : ∀ x ∈ s.inputs, x.Accepted) :
    ∃ n t, runSteps n s = .next t ∧ t.inputs = [] ∧ t.settled ∧ s.inputs.length ≤ n ∧ n ≤ s.cost := by
  induction hm : s.cost using Nat.strong_induction_on generalizing s with
  | _ m ih =>
    by_cases hend : s.inputs = [] ∧ s.settled
    · obtain ⟨hin, hs⟩ := hend
      exact ⟨0, s, rfl, hin, hs, by simp [hin], Nat.zero_le _⟩
    · obtain ⟨t, hst, htacc, hcost, hlength⟩ := step_progress hacc hend
      obtain ⟨n, u, hrun, hin, hu, hlow, hhigh⟩ := ih t.cost (by omega) htacc rfl
      exact ⟨n + 1, u, (runSteps_succ hst n).trans hrun, hin, hu, by omega, by omega⟩

/-- Settles O34: from a settled state the cost of the trace is its operations and two for each PINS. -/
theorem traceTakesAStepPerOperationAndEvent : Obligations.TraceTakesAStepPerOperationAndEvent := by
  intro s hs hacc pins
  obtain ⟨n, t, hrun, hin, ht, hlow, hhigh⟩ := runSteps_to_end hacc
  have hcount : s.raisedCount = 0 := by simp [State.raisedCount, hs _]
  have hcost : s.cost = s.inputs.length + 2 * pins := by
    rw [State.cost, hcount, Nat.add_zero]
    rfl
  exact ⟨n, t, hrun, hin, ht, step_at_end hin ht, hlow, hcost ▸ hhigh⟩

end Sys2Proof.Machine
end

section
/-! SUPPORT. A sampling instant and the steps of its events, one by one: what each makes of its channel, and that it leaves the rest of
the block (R89, R90, R93, R135). -/

namespace Sys2Proof.Machine

/-! What an instant raises. -/

/-- Of two events the placement says which comes first, and how many steps of others may come between (R89, R93). -/
theorem raisedEvents_both (pl : Schedule) (t d : Bool) :
    raisedEvents pl true true t d =
      if pl.first = .trigger then [⟨⟨.trigger, t, d⟩, 0⟩, ⟨⟨.direction, t, d⟩, pl.between⟩]
      else [⟨⟨.direction, t, d⟩, 0⟩, ⟨⟨.trigger, t, d⟩, pl.between⟩] := by
  obtain ⟨_ | _, n⟩ := pl <;> rfl

/-- A line raises its event exactly when its channel is claimed and the opposite level was latched (R89 to R91). -/
theorem changed_and_claimed (s : State) (c : Channel) (prev : Option Bool) (now : Bool) :
    (changed prev now && s.claimed c) = decide (s.claimed c = true ∧ prev = some (!now)) := by
  rw [changed_eq_decide, Bool.and_comm, Bool.decide_and, Bool.decide_eq_true]

/-- Settles O28: the instant latches and raises `raisedEvents` (`sample_chan`), which of its four cases each premise on `es` names. -/
theorem pinsPlacesItsEvents : Obligations.PinsPlacesItsEvents := by
  intro s c t d te de onT onD n es hboth htrig hdir hnone
  have hes : es = raisedEvents s.schedule (decide te) (decide de) t d := by
    by_cases hte : te <;> by_cases hde : de
    · rw [hboth ⟨hte, hde⟩, decide_eq_true hte, decide_eq_true hde, raisedEvents_both]
    · rw [htrig ⟨hte, hde⟩, decide_eq_true hte, decide_eq_false hde, raisedEvents]
    · rw [hdir ⟨hte, hde⟩, decide_eq_false hte, decide_eq_true hde, raisedEvents]
    · rw [hnone ⟨hte, hde⟩, decide_eq_false hte, decide_eq_false hde, raisedEvents]
  refine ⟨_, exec_pins_index c t d s, ?_, rfl, rfl, rfl, sameOutside_sample s c t d⟩
  rw [sample_chan, changed_and_claimed, changed_and_claimed, hes]

/-! One step after another. -/

theorem runSteps_trans {m n : Nat} {s t u : State} (h : runSteps m s = .next t) (h' : runSteps n t = .next u) :
    runSteps (n + m) s = .next u := by
  induction m generalizing s with
  | zero => cases h; exact h'
  | succ m ih =>
    cases hst : step s with
    | next s' =>
      rw [runSteps_succ hst] at h
      exact (runSteps_succ hst (n + m)).trans (ih h)
    | fault f => simp [runSteps, hst] at h
    | refused r => simp [runSteps, hst] at h

theorem runSteps_one {s t : State} (h : step s = .next t) : runSteps 1 s = .next t :=
  runSteps_succ h 0

theorem noReset_op (p : Port) (w : Descriptor) (placement : Schedule) (rest : List Input) :
    noReset (.op p w placement :: rest) := nofun

/-- A claimed channel whose last levels are known, with its raised events. -/
abbrev sampledChan (p : Word) (r t d : Bool) (es : List Raised) : Chan := ⟨some ⟨p, r⟩, some t, some d, es⟩

/-- What steps that concern channel `c` alone make of state `s`: the channel, `started` and what is still presented as given, no result,
and all else, but the placement, as it was. -/
structure Became (c : Channel) (x : Chan) (started : Bool) (inputs : List Input) (s u : State) : Prop where
  chan : u.chan c = x
  others : ∀ c', c' ≠ c → u.chan c' = s.chan c'
  started : u.started = started
  inputs : u.inputs = inputs
  fault : u.fault = s.fault
  out : u.out = .none

section
variable {c : Channel} {x : Chan} {b : Bool} {l : List Input} {s u : State} (h : Became c x b l s u)
include h

theorem Became.trans {y : Chan} {b' : Bool} {l' : List Input} {v : State} (h' : Became c y b' l' u v) : Became c y b' l' s v where
  chan := h'.chan
  others c' hne := (h'.others c' hne).trans (h.others c' hne)
  started := h'.started
  inputs := h'.inputs
  fault := h'.fault.trans h.fault
  out := h'.out

theorem Became.raised_of_ne (hs : ∀ c', c' ≠ c → s.raised c' = []) (c' : Channel) (hne : c' ≠ c) : u.raised c' = [] :=
  (congrArg Chan.raised (h.others c' hne)).trans (hs c' hne)

theorem Became.settled (hs : ∀ c', c' ≠ c → s.raised c' = []) (hx : x.raised = []) : u.settled := fun c' => by
  by_cases hne : c' = c
  · exact hne ▸ (congrArg Chan.raised h.chan).trans hx
  · exact h.raised_of_ne hs c' hne

theorem Became.decoder : u.decoder c = x.decoder := congrArg Chan.decoder h.chan

theorem Became.position : u.position c = x.decoder.map Decoder.position := congrArg (Option.map Decoder.position) h.decoder

end

/-! The step of the PINS, and the steps of its events. -/

section
variable {s : State} {c : Channel} {p : Word} {r t d : Bool}

/-- The step of a raised event that is due, no other channel having one: its handler's ±1 (R73, R89). -/
theorem step_dueEvent {e : EdgeEvent} {es : List Raised} (hx : s.chan c = sampledChan p r t d (⟨e, 0⟩ :: es))
    (hothers : ∀ c', c' ≠ c → s.raised c' = []) (hr : noReset s.inputs) :
    ∃ u, step s = .next u ∧ Became c (sampledChan (tick (cw e.line e.T e.D r) p) r t d es) true s.inputs s u := by
  have hraised : s.raised c = ⟨e, 0⟩ :: es := congrArg Chan.raised hx
  have hclaimed : s.claimed c = true := congrArg (fun x : Chan => x.decoder.isSome) hx
  have hfirst (c' : Channel) (hlt : c'.index < c.index) : s.isDue c' = false :=
    isDue_of_nil (hothers c' fun hc => Nat.lt_irrefl _ (hc ▸ hlt))
  obtain ⟨hstarted, hout, hfault⟩ := edgeEvent_block
    (s := s.age.setChan c { s.age.chan c with raised := es }) (by rw [State.claimed_setRaised, State.claimed_age, hclaimed]) e
  refine ⟨_, step_eventStep hr (isDue_eq_true.2 ⟨_, _, hraised, rfl⟩) hfirst, ?_⟩
  rw [eventStep_cons hraised]
  exact {
    chan := by rw [edgeEvent_chan, State.chan_setChan, State.chan_age, hx]; rfl
    others := fun c' hne => by
      rw [edgeEvent_chan_of_ne _ _ hne, State.chan_setChan_of_ne _ _ hne, State.chan_age, Chan.age_of_nil (hothers c' hne)]
    started := hstarted
    inputs := edgeEvent_inputs _ _ _
    fault := hfault
    out := hout }

variable {pl : Schedule} {rest : List Input} (hs : s.settled) (hd : s.decoder c = some ⟨p, r⟩)
  (hi : s.inputs = presents (.pins c.index t d) pl :: rest)
include hs hd hi

/-- The step of a PINS of a claimed channel: the levels latched, the changed lines' events raised (R89). -/
theorem step_pins_became :
    ∃ u, step s = .next u ∧
      Became c (sampledChan p r t d (raisedEvents pl (decide (s.tPrev c = some (!t))) (decide (s.dPrev c = some (!d))) t d))
        s.started rest s u := by
  have htake (c' : Channel) : (s.take rest pl).chan c' = s.chan c' := (s.chan_take rest pl c').trans (Chan.age_of_nil (hs c'))
  have hclaimed : s.claimed c = true := (s.claimed_iff c).2 ⟨_, hd⟩
  have hdec : (s.chan c).decoder = some ⟨p, r⟩ := hd
  refine ⟨_, step_pins hs hi, ?_⟩
  exact {
    chan := by
      rw [sample_chan, take_settled hs rest pl c, State.tPrev_take, State.dPrev_take, State.claimed_take, State.take_schedule, htake,
        changed_eq_decide, changed_eq_decide, hclaimed, Bool.and_true, Bool.and_true]
      simp only [hdec, List.nil_append]
    others := fun c' hne => (sample_chan_of_ne _ t d hne).trans (htake c')
    started := rfl
    inputs := rfl
    fault := rfl
    out := rfl }

/-- An instant in which no line changed is one step (R90). -/
theorem runSteps_noLine (ht : s.tPrev c ≠ some (!t)) (hdp : s.dPrev c ≠ some (!d)) :
    ∃ u, runSteps 1 s = .next u ∧ Became c (sampledChan p r t d []) s.started rest s u := by
  obtain ⟨u, hstep, hu⟩ := step_pins_became hs hd hi
  rw [decide_eq_false ht, decide_eq_false hdp] at hu
  exact ⟨u, runSteps_one hstep, hu⟩

variable (hr : noReset rest)
include hr

/-- The PINS and its first event are two steps, with the events after the first still to come (R89, R135). -/
theorem runSteps_firstEvent {e : EdgeEvent} {es : List Raised}
    (he : raisedEvents pl (decide (s.tPrev c = some (!t))) (decide (s.dPrev c = some (!d))) t d = ⟨e, 0⟩ :: es) :
    ∃ u, runSteps 2 s = .next u ∧ Became c (sampledChan (tick (cw e.line e.T e.D r) p) r t d es) true rest s u := by
  obtain ⟨v, hpins, hv⟩ := step_pins_became hs hd hi
  rw [he] at hv
  obtain ⟨u, hevent, hu⟩ := step_dueEvent hv.chan (hv.raised_of_ne fun c' _ => hs c') (hv.inputs.symm ▸ hr)
  rw [hv.inputs] at hu
  exact ⟨u, runSteps_trans (runSteps_one hpins) (runSteps_one hevent), hv.trans hu⟩

/-- Where both lines changed the PINS and its first event are two steps, with the other event still to come (R93). -/
theorem runSteps_firstOfTwo (ht : s.tPrev c = some (!t)) (hdp : s.dPrev c = some (!d)) :
    ∃ u, runSteps 2 s = .next u ∧
      Became c (sampledChan (tick (cw pl.first t d r) p) r t d [⟨⟨pl.first.other, t, d⟩, pl.between⟩]) true rest s u :=
  runSteps_firstEvent (e := ⟨pl.first, t, d⟩) hs hd hi hr (by rw [decide_eq_true ht, decide_eq_true hdp, raisedEvents])

end

/-! The second of two events. -/

theorem cw_other (l : Line) (T D r : Bool) : cw l.other T D r = !cw l T D r := by
  cases l with
  | trigger => exact cw_direction T D r
  | direction => rw [cw_direction, Bool.not_not]; rfl

section
variable {s : State} {c : Channel} {p : Word} {r t d : Bool} {first : Line} (hothers : ∀ c', c' ≠ c → s.raised c' = [])
include hothers

/-- The second of two events takes back the ±1 of the first (R77, R93). -/
theorem step_secondOfTwo (hx : s.chan c = sampledChan (tick (cw first t d r) p) r t d [⟨⟨first.other, t, d⟩, 0⟩])
    (hr : noReset s.inputs) :
    ∃ u, step s = .next u ∧ Became c (sampledChan p r t d []) true s.inputs s u := by
  obtain ⟨u, hstep, hu⟩ := step_dueEvent hx hothers hr
  rw [cw_other, tick_tick_not] at hu
  exact ⟨u, hstep, hu⟩

/-- An operation other than PINS comes before an event that has room for one step, which leaves it none (R7). -/
theorem step_between {e : EdgeEvent} {port : Port} {w : Descriptor} {pl : Schedule} {rest : List Input} {i : Instr}
    (hx : s.chan c = sampledChan p r t d [⟨e, 1⟩]) (hi : s.inputs = .op port w pl :: rest) (hb : boundary port w = .ok i)
    (hop : i.op ≠ .pins) :
    step s = exec i (s.take rest pl) ∧ (s.take rest pl).chan c = sampledChan p r t d [⟨e, 0⟩] ∧
      ∀ c', c' ≠ c → (s.take rest pl).chan c' = s.chan c' := by
  have hdue (c' : Channel) : s.isDue c' = false := by
    by_cases hne : c' = c
    · subst hne
      simp [State.isDue, State.raised, hx]
    · exact isDue_of_nil (hothers c' hne)
  refine ⟨step_of_no_turn hi hb (turn_instr_eq_none hdue fun h => absurd h hop), ?_, fun c' hne => ?_⟩
  · rw [State.chan_take, hx]
    rfl
  · rw [State.chan_take, Chan.age_of_nil (hothers c' hne)]

end

end Sys2Proof.Machine
end

section
/-! SUPPORT. Runs of sampling instants: the count of the changed lines, and what comes between two events of one instant (R82, R89, R93). -/

namespace Sys2Proof.Machine

section
variable {s : State} {c : Channel} {p : Word} {r t d : Bool} {pl : Schedule} {rest : List Input}
  (hs : s.settled) (hd : s.decoder c = some ⟨p, r⟩) (hi : s.inputs = presents (.pins c.index t d) pl :: rest) (hr : noReset rest)
include hs hd hi hr

/-- One changed line: two steps, the second the event of that line (R89). -/
theorem runSteps_oneLine {l : Line}
    (he : raisedEvents pl (decide (s.tPrev c = some (!t))) (decide (s.dPrev c = some (!d))) t d = [⟨⟨l, t, d⟩, 0⟩]) :
    ∃ u, runSteps 2 s = .next u ∧ Became c (sampledChan (tick (cw l t d r) p) r t d []) true rest s u :=
  runSteps_firstEvent (e := ⟨l, t, d⟩) hs hd hi hr he

/-- Both lines changed, nothing coming between their events: three steps, and the counter is back (R93). -/
theorem runSteps_bothLines (ht : s.tPrev c = some (!t)) (hdp : s.dPrev c = some (!d)) (hpl : pl.between = 0) :
    ∃ u, runSteps 3 s = .next u ∧ Became c (sampledChan p r t d []) true rest s u := by
  obtain ⟨v, hfirst, hv⟩ := runSteps_firstOfTwo hs hd hi hr ht hdp
  obtain ⟨u, hsecond, hu⟩ := step_secondOfTwo (hv.raised_of_ne fun c' _ => hs c') (hpl ▸ hv.chan) (hv.inputs.symm ▸ hr)
  rw [hv.inputs] at hu
  exact ⟨u, runSteps_trans hfirst (runSteps_one hsecond), hv.trans hu⟩

end

/-- Settles O27: which lines changed decides which events are raised, and each is one step. -/
theorem pinsCountsTheChangedLines : Obligations.PinsCountsTheChangedLines := by
  intro s c t d p r pl rest hp hrev hs hr hi te de hpl n hboth htrig hdir hnone
  have hd : s.decoder c = some ⟨p, r⟩ := (s.decoder_eq_some_iff c _).2 ⟨hp, hrev⟩
  obtain ⟨u, q, b, hrun, hu, hcount⟩ : ∃ u q b, runSteps n s = .next u ∧ Became c (sampledChan q r t d []) b rest s u ∧
      (te ∧ de → q = p ∧ b = true) ∧ (te ∧ ¬de → q = tick (cw .trigger t d r) p ∧ b = true) ∧
      (¬te ∧ de → q = tick (cw .direction t d r) p ∧ b = true) ∧ (¬te ∧ ¬de → q = p ∧ b = s.started) := by
    by_cases hte : te <;> by_cases hde : de
    · obtain ⟨u, hrun, hu⟩ := runSteps_bothLines hs hd hi hr hte hde (hpl ⟨hte, hde⟩)
      exact ⟨u, _, _, hboth ⟨hte, hde⟩ ▸ hrun, hu, by simp [hte, hde]⟩
    · obtain ⟨u, hrun, hu⟩ := runSteps_oneLine (l := .trigger) hs hd hi hr (by rw [decide_eq_true hte, decide_eq_false hde, raisedEvents])
      exact ⟨u, _, _, htrig ⟨hte, hde⟩ ▸ hrun, hu, by simp [hte, hde]⟩
    · obtain ⟨u, hrun, hu⟩ := runSteps_oneLine (l := .direction) hs hd hi hr (by rw [decide_eq_false hte, decide_eq_true hde, raisedEvents])
      exact ⟨u, _, _, hdir ⟨hte, hde⟩ ▸ hrun, hu, by simp [hte, hde]⟩
    · obtain ⟨u, hrun, hu⟩ := runSteps_noLine hs hd hi hte hde
      exact ⟨u, _, _, hnone ⟨hte, hde⟩ ▸ hrun, hu, by simp [hte, hde]⟩
  have hstate {q' : Word} {b' : Bool} (h : q = q' ∧ b = b') : u.position c = some q' ∧ u.started = b' :=
    ⟨h.1 ▸ hu.position, h.2 ▸ hu.started⟩
  obtain ⟨hcboth, hctrig, hcdir, hcnone⟩ := hcount
  exact ⟨u, hrun, congrArg Chan.tPrev hu.chan, congrArg Chan.dPrev hu.chan, congrArg (Option.map Decoder.reversed) hu.decoder,
    (u.claimed_iff c).2 ⟨_, hu.decoder⟩, hu.settled (fun c' _ => hs c') rfl, hu.inputs, fun h => hstate (hcboth h),
    fun h => hstate ((hctrig h).imp_left (·.trans (tick_eq_add _ p))), fun h => hstate ((hcdir h).imp_left (·.trans (tick_eq_add _ p))),
    fun h => hstate (hcnone h), hu.fault, hu.out, hu.others⟩

/-- Settles O31: the second event takes back what the first gave (`step_secondOfTwo`), also where a READ comes between them. -/
theorem bothLinesAtOnceCancel : Obligations.BothLinesAtOnceCancel := by
  intro s c t d p r first pl rest hp hrev ht hdp hs hr
  have hd : s.decoder c = some ⟨p, r⟩ := (s.decoder_eq_some_iff c _).2 ⟨hp, hrev⟩
  refine ⟨fun hi => ?together, fun hi => ?between⟩
  case together =>
    obtain ⟨u, hrun, hu⟩ := runSteps_bothLines hs hd hi hr ht hdp rfl
    exact ⟨u, hrun, hu.position, hu.settled (fun c' _ => hs c') rfl, hu.inputs⟩
  case between =>
    obtain ⟨v, hfirst, hv⟩ := runSteps_firstOfTwo hs hd hi (noReset_op _ _ _ _) ht hdp
    have hothers := hv.raised_of_ne fun c' _ => hs c'
    have hb : boundary .cmd (encode (.read c.index)) = .ok (.read c.index) :=
      boundary_ok (decode_encode (Instr.wf_of_index rfl)) (.inr rfl)
    obtain ⟨hread, htake, htakeOthers⟩ := step_between hothers hv.chan hv.inputs hb nofun
    rw [exec_read_claimed (congrArg Chan.decoder htake)] at hread
    have hothers' (c' : Channel) (hne : c' ≠ c) : (v.take rest pl).raised c' = [] :=
      (congrArg Chan.raised (htakeOthers c' hne)).trans (hothers c' hne)
    obtain ⟨u, hsecond, hu⟩ := step_secondOfTwo (s := (v.take rest pl).withResult _) hothers' htake hr
    rw [← tick_eq_add]
    exact ⟨_, u, runSteps_trans hfirst (runSteps_one hread), rfl, hsecond, hu.position, hu.settled hothers' rfl, hu.inputs⟩

theorem EdgeEvent.instr_ch (c : Channel) (e : EdgeEvent) : (e.instr c).ch = c.index := by
  obtain ⟨_ | _, T, D⟩ := e <;> rfl

theorem EdgeEvent.instr_ne_pins (c : Channel) (e : EdgeEvent) : (e.instr c).op ≠ .pins := by
  obtain ⟨_ | _, T, D⟩ := e <;> nofun

/-- Settles O32: the other channel's event comes between (`step_between`), and neither channel's events touch the other. -/
theorem anotherChannelsEventFallsBetween : Obligations.AnotherChannelsEventFallsBetween := by
  intro s c c' t d p q r b e first pl rest hne hp hrev hq hrev' ht hdp hs hr hi
  have hd : s.decoder c = some ⟨p, r⟩ := (s.decoder_eq_some_iff c _).2 ⟨hp, hrev⟩
  have hd' : s.decoder c' = some ⟨q, b⟩ := (s.decoder_eq_some_iff c' _).2 ⟨hq, hrev'⟩
  obtain ⟨v, hfirst, hv⟩ := runSteps_firstOfTwo hs hd hi (noReset_op _ _ _ _) ht hdp
  have hothers := hv.raised_of_ne fun c' _ => hs c'
  obtain ⟨hevent, htake, htakeOthers⟩ := step_between hothers hv.chan hv.inputs
    (boundary_direct_encode (Instr.wf_of_index (EdgeEvent.instr_ch c' e))) (EdgeEvent.instr_ne_pins c' e)
  rw [exec_edgeEvent_instr] at hevent
  have hchan := (edgeEvent_chan_of_ne (v.take rest pl) e hne.symm).trans htake
  have hdec : (v.take rest pl).decoder c' = some ⟨q, b⟩ :=
    (congrArg Chan.decoder ((htakeOthers c' hne).trans (hv.others c' hne))).trans hd'
  have hothers' (c'' : Channel) (hne' : c'' ≠ c) : ((v.take rest pl).edgeEvent c' e).raised c'' = [] :=
    (edgeEvent_raised _ c' c'' e).trans ((congrArg Chan.raised (htakeOthers c'' hne')).trans (hothers c'' hne'))
  have hinputs : ((v.take rest pl).edgeEvent c' e).inputs = rest := edgeEvent_inputs _ c' e
  obtain ⟨w, hsecond, hw⟩ := step_secondOfTwo hothers' hchan (hinputs.symm ▸ hr)
  simp only [← tick_eq_add]
  exact ⟨_, w, runSteps_trans hfirst (runSteps_one hevent), congrArg (fun x : Chan => x.decoder.map Decoder.position) hchan,
    edgeEvent_position hdec e, hsecond, hw.position, congrArg (fun x : Chan => x.decoder.map Decoder.position) (hw.others c' hne),
    hw.settled hothers' rfl, hw.inputs.trans hinputs⟩

/-! Quadrature (R82). -/

/-- Between two instants of a claimed channel with `reversed` 0: its count and last levels, no event being still to come. -/
structure AtRest (c : Channel) (p : Word) (t d : Bool) (inputs : List Input) (s : State) : Prop where
  settled : s.settled
  chan : s.chan c = sampledChan p false t d []
  inputs : s.inputs = inputs

section
variable {s : State} {c : Channel} {p : Word} {pl : Schedule} {rest : List Input} (t d : Bool) (hr : noReset rest)
include hr

/-- The trigger line changes to `t`: its event's ±1. -/
theorem AtRest.triggerLine (h : AtRest c p (!t) d (presents (.pins c.index t d) pl :: rest) s) :
    ∃ u, runSteps 2 s = .next u ∧ AtRest c (tick (cw .trigger t d false) p) t d rest u := by
  obtain ⟨u, hrun, hu⟩ := runSteps_oneLine (l := .trigger) h.settled (congrArg Chan.decoder h.chan) h.inputs hr
    (by simp [State.tPrev, State.dPrev, h.chan, raisedEvents])
  exact ⟨u, hrun, hu.settled (fun c' _ => h.settled c') rfl, hu.chan, hu.inputs⟩

/-- The direction line changes to `d`: its event's ±1. -/
theorem AtRest.directionLine (h : AtRest c p t (!d) (presents (.pins c.index t d) pl :: rest) s) :
    ∃ u, runSteps 2 s = .next u ∧ AtRest c (tick (cw .direction t d false) p) t d rest u := by
  obtain ⟨u, hrun, hu⟩ := runSteps_oneLine (l := .direction) h.settled (congrArg Chan.decoder h.chan) h.inputs hr
    (by simp [State.tPrev, State.dPrev, h.chan, raisedEvents])
  exact ⟨u, hrun, hu.settled (fun c' _ => h.settled c') rfl, hu.chan, hu.inputs⟩

end

theorem AtRest.position {s : State} {c : Channel} {p : Word} {t d : Bool} {l : List Input} (h : AtRest c p t d l s) :
    s.position c = some p := congrArg (fun x : Chan => x.decoder.map Decoder.position) h.chan

theorem tick_four (b : Bool) (p : Word) : tick b (tick b (tick b (tick b p))) = if b then p + 4 else p - 4 := by
  rw [tick_twice, tick_twice]
  cases b with
  | true => simp only [↓reduceIte]; bv_omega
  | false => simp only [Bool.false_eq_true, ↓reduceIte]; bv_omega

/-- Settles O33: at each instant one line changes, and in a cycle all four events have the same predicate, in a bounce opposite ones. -/
theorem quadratureCycleCountsFour : Obligations.QuadratureCycleCountsFour := by
  intro s c p x y z v rest hp hrev ht hdp hs hr
  have hd : (s.chan c).decoder = some ⟨p, false⟩ := (s.decoder_eq_some_iff c _).2 ⟨hp, hrev⟩
  have hrest {l : List Input} (hi : s.inputs = l) : AtRest c p false false l s :=
    ⟨hs, congr (congr (congr (congrArg Chan.mk hd) ht) hdp) (hs c), hi⟩
  refine ⟨fun hi => ?up, fun hi => ?down, fun hi => ?bounce⟩
  case up =>
    obtain ⟨s₁, h₁, hs₁⟩ := (hrest hi).triggerLine true false (noReset_op _ _ _ _)
    obtain ⟨s₂, h₂, hs₂⟩ := hs₁.directionLine true true (noReset_op _ _ _ _)
    obtain ⟨s₃, h₃, hs₃⟩ := hs₂.triggerLine false true (noReset_op _ _ _ _)
    obtain ⟨u, h₄, hu⟩ := hs₃.directionLine false false hr
    exact ⟨u, runSteps_trans h₁ (runSteps_trans h₂ (runSteps_trans h₃ h₄)), hu.position.trans (congrArg some (tick_four true p)),
      hu.settled, hu.inputs⟩
  case down =>
    obtain ⟨s₁, h₁, hs₁⟩ := (hrest hi).directionLine false true (noReset_op _ _ _ _)
    obtain ⟨s₂, h₂, hs₂⟩ := hs₁.triggerLine true true (noReset_op _ _ _ _)
    obtain ⟨s₃, h₃, hs₃⟩ := hs₂.directionLine true false (noReset_op _ _ _ _)
    obtain ⟨u, h₄, hu⟩ := hs₃.triggerLine false false hr
    exact ⟨u, runSteps_trans h₁ (runSteps_trans h₂ (runSteps_trans h₃ h₄)), hu.position.trans (congrArg some (tick_four false p)),
      hu.settled, hu.inputs⟩
  case bounce =>
    obtain ⟨s₁, h₁, hs₁⟩ := (hrest hi).triggerLine true false (noReset_op _ _ _ _)
    obtain ⟨u, h₂, hu⟩ := hs₁.triggerLine false false hr
    exact ⟨u, runSteps_trans h₁ h₂, hu.position.trans (congrArg some (tick_tick_not true p)), hu.settled, hu.inputs⟩

end Sys2Proof.Machine
end
